-- ==== Sys2Proof/Word.lean ====
section
/-! DEFINITION. The word types of the core: rule R4 of spec/00_scope.md fixes 8-bit registers and memory bytes,
16-bit `SP` and `PC`, and 16-bit memory addresses. Bit 0 is the least significant bit (rule R27). -/

namespace Sys2Proof

/-- `u8`: an 8-bit register, a memory byte, an opcode byte, an immediate byte or a cycle count (R4, R27). -/
abbrev Byte := BitVec 8

/-- `u16`: a register pair, the stack pointer or the program counter (R4, R27). -/
abbrev Word := BitVec 16

/-- A memory address: one of the 2^16 byte addresses of R32. -/
abbrev Addr := BitVec 16

end Sys2Proof
end

