-- ==== Sys2Proof/Machine/Flags.lean ====
section
/-! DEFINITION. The flag set, its place in `F`, and the arithmetic primitives: pure, total functions that return the
numeric result and the flag set (spec/10_state.md section 3, spec/40_alu_primitives.md). Widths and the half mask are
fixed at the call site (R65). -/

namespace Sys2Proof.Machine

/-- A flag set: the four booleans Zero, Subtract, HalfCarry, Carry (R15, R27). -/
structure FlagSet where
  z : Bool
  n : Bool
  h : Bool
  c : Bool
deriving DecidableEq, Repr

/-- What a primitive returns: the numeric result and the flag set (R65). -/
structure AluResult (w : Nat) where
  value : BitVec w
  flags : FlagSet
deriving DecidableEq, Repr

/-- `pack(fl)`: the byte `{Z, N, H, C, 0, 0, 0, 0}` (R16). The positions are the spec's own choice D1, from the SM83
(log entry 6). -/
def pack (fl : FlagSet) : Byte :=
  BitVec.ofBool fl.z ++ BitVec.ofBool fl.n ++ BitVec.ofBool fl.h ++ BitVec.ofBool fl.c ++ 0b0000#4

/-- `unpack(F)`: Zero is bit 7, Subtract bit 6, HalfCarry bit 5, Carry bit 4 (R15, R16). -/
def unpack (f : Byte) : FlagSet :=
  { z := f.getLsbD 7, n := f.getLsbD 6, h := f.getLsbD 5, c := f.getLsbD 4 }

/-- "Flags empty": all four false (R16). -/
def FlagSet.empty : FlagSet := { z := false, n := false, h := false, c := false }

/-- `halfMask` is `2^(width/2) - 1`: `0x0F` at width 8 and `0x00FF` at width 16 (R66, spec decision D24). -/
def halfMask (w : Nat) : BitVec w := BitVec.ofNat w (2 ^ (w / 2) - 1)

/-- A flag as the number 0 or 1 of a width (R71, R73). -/
def carryValue (w : Nat) (carryIn : Bool) : BitVec w := BitVec.ofNat w carryIn.toNat

/-- `addWidth`: the sum wraps to the width; Carry when the exact sum passes the width; HalfCarry when the lower halves'
sum passes the half mask; Subtract false; Zero on the wrapped sum (R67, R68). -/
def addWidth {w : Nat} (a b : BitVec w) : AluResult w :=
  { value := a + b
    flags :=
      { z := a + b == 0
        n := false
        h := decide ((a &&& halfMask w).toNat + (b &&& halfMask w).toNat > (halfMask w).toNat)
        c := decide (a.toNat + b.toNat > 2 ^ w - 1) } }

/-- `subWidth`: the difference wraps; Carry when `a < b`; HalfCarry when the lower half of `a` is below that of `b`;
Subtract true; Zero on the wrapped difference (R69, R70). -/
def subWidth {w : Nat} (a b : BitVec w) : AluResult w :=
  { value := a - b
    flags :=
      { z := a - b == 0
        n := true
        h := decide ((a &&& halfMask w).toNat < (b &&& halfMask w).toNat)
        c := decide (a.toNat < b.toNat) } }

/-- `compareWidth`: "identical to `subWidth` but discards the numeric result, returning only flags" (R72). -/
def compareWidth {w : Nat} (a b : BitVec w) : FlagSet := (subWidth a b).flags

/-- `add8` (R67). -/
def add8 (a b : Byte) : AluResult 8 := addWidth a b

/-- `add16` (R68). -/
def add16 (a b : Word) : AluResult 16 := addWidth a b

/-- `sub8` (R69). -/
def sub8 (a b : Byte) : AluResult 8 := subWidth a b

/-- `sub16`: part of the ALU's function set; no instruction calls it (R70). -/
def sub16 (a b : Word) : AluResult 16 := subWidth a b

/-- `cp8` (R72). -/
def cp8 (a b : Byte) : FlagSet := compareWidth a b

/-- `sbc8`: `a - b - carryIn` in two wrapping steps, Carry the borrow of either; HalfCarry is ONE combined test of the
low nibbles on integers, not reduced to four bits (R71). Defined at width 8 only (C8, spec decision D16). -/
def sbc8 (a b : Byte) (carryIn : Bool) : AluResult 8 :=
  let t := a - b
  let diff := t - carryValue 8 carryIn
  { value := diff
    flags :=
      { z := diff == 0
        n := true
        h := decide ((a &&& halfMask 8).toNat < (b &&& halfMask 8).toNat + carryIn.toNat)
        c := decide (a.toNat < b.toNat) || decide (t.toNat < carryIn.toNat) } }

/-- `adc8`: accumulator plus carry, then plus the operand, both by `add8`; HalfCarry and Carry are ORed across the two
steps, Zero and Subtract are the final step's alone (R73, conflict C1). -/
def adc8 (a b : Byte) (carryIn : Bool) : AluResult 8 :=
  let step1 := add8 a (carryValue 8 carryIn)
  let step2 := add8 step1.value b
  { value := step2.value
    flags :=
      { z := step2.flags.z
        n := step2.flags.n
        h := step1.flags.h || step2.flags.h
        c := step1.flags.c || step2.flags.c } }

end Sys2Proof.Machine
end

