-- ==== Sys2Proof/Config.lean ====
section
/-! DEFINITION. What is fixed for this machine. Rule R5 of spec/00_scope.md gives a model three parameters and no
others: `Mem`, `Launch` and `Ticks`. None of them is a constant here: `Mem` and the launch register file stand in
`State` as plain data (log entries 1 and 3), and `Ticks` is an argument of `IsRun` (spec decision D22). Every
result of every instruction is stated by the spec, so the model needs NO free value and this file declares no opaque
constant. -/

namespace Sys2Proof.Config

/-- The number of byte addresses: one space, `0x0000` to `0xFFFF` (R32). -/
def addressCount : Nat := 65536

/-- The reset value of each 8-bit register, `F` among them (R24, R220). -/
def resetByte : Byte := 0x00

/-- The reset value of `SP` (R24, R220). -/
def resetStackPointer : Word := 0x0000

/-- The reset value of `PC`, the one fixed address of the machine: the entry point (R24, R37, R221). -/
def entryPoint : Word := 0x0000

end Sys2Proof.Config
end

