-- ==== Sys2Proof/Syntax.lean ====
section
/-! DEFINITION. The operand model, the seven families, one constructor of `Instr` per row of spec/opcode_table.json,
and the instruction value the decoder makes of a row (spec/30_encoding.md rules R45 to R62, spec/41_decode_execute.md
rules R89 and R91). Mnemonics are the customary SM83 ones (R60, spec decision D19): labels only. -/

namespace Sys2Proof

/-- The `which` of a `Register8` operand: `w` in `{A, B, C, D, E, H, L}`. `F` never occurs (R46); `Register8(F)` is
not a value of the operand type (spec decision D18). -/
inductive Reg8 where
  | a | b | c | d | e | h | l
deriving DecidableEq, Repr

/-- The `which` of a `Register16` operand: a pair view or `SP` (R46, R48). There is no `AF` view (R25). -/
inductive Reg16 where
  | bc | de | hl | sp
deriving DecidableEq, Repr

/-- The addressing mode of a `Memory` operand; the only mode that occurs is `HL` (R46). -/
inductive AddrMode where
  | hl
deriving DecidableEq, Repr

/-- An operand: "a closed tagged union" (R46). The immediate kinds carry no value: the handler fetches it.
`imm16` is in the operand model but no in-scope opcode has it and no family resolves it (R62, spec decision D17). -/
inductive Operand where
  | register8 (which : Reg8)
  | register16 (which : Reg16)
  | imm8
  | imm16
  | immSigned8
  | memory (mode : AddrMode)
deriving DecidableEq, Repr

/-- The seven instruction families (R91). -/
inductive Family where
  /-- ADD8, 8-bit add: `ADD A,x` (42_add8.md). -/
  | add8
  /-- ADD16, 16-bit add: `ADD HL,rr` (43_add16.md). -/
  | add16
  /-- ADDSP, stack-pointer add: `ADD SP,e` (44_addsp.md). -/
  | addsp
  /-- ADC, add-with-carry: `ADC A,x` (45_adc.md). -/
  | adc
  /-- SUB, subtract: `SUB x` (46_sub.md). -/
  | sub
  /-- SBC, subtract-with-carry: `SBC A,x` (47_sbc.md). -/
  | sbc
  /-- CP, compare: `CP x` (48_cp.md). -/
  | cp
deriving DecidableEq, Repr

/-- An instruction value: the decoder's output, "one variant per instruction family, each holding an Operand and a
static cycle count" (R89). -/
structure InstrValue where
  family : Family
  operand : Operand
  cycles : Byte
deriving DecidableEq, Repr

/-- The instructions, one constructor per row of spec/opcode_table.json. An immediate form carries no value: the
decoder sees the opcode byte alone, and the immediate is fetched when the instruction executes (R54, log entry 15). -/
inductive Instr where
  /-- `ADD A,B` (R106). -/
  | addAB
  /-- `ADD A,C` (R107). -/
  | addAC
  /-- `ADD A,D` (R108). -/
  | addAD
  /-- `ADD A,E` (R109). -/
  | addAE
  /-- `ADD A,H` (R110). -/
  | addAH
  /-- `ADD A,L` (R111). -/
  | addAL
  /-- `ADD A,(HL)` (R112). -/
  | addAMemHl
  /-- `ADD A,A` (R113). -/
  | addAA
  /-- `ADD A,n` (R114). -/
  | addAN
  /-- `ADD HL,BC` (R121). -/
  | addHlBc
  /-- `ADD HL,DE` (R122). -/
  | addHlDe
  /-- `ADD HL,HL` (R123). -/
  | addHlHl
  /-- `ADD HL,SP` (R124). -/
  | addHlSp
  /-- `ADD SP,e` (R131). -/
  | addSpE
  /-- `ADC A,B` (R136). -/
  | adcAB
  /-- `ADC A,C` (R137). -/
  | adcAC
  /-- `ADC A,D` (R138). -/
  | adcAD
  /-- `ADC A,E` (R139). -/
  | adcAE
  /-- `ADC A,H` (R140). -/
  | adcAH
  /-- `ADC A,L` (R141). -/
  | adcAL
  /-- `ADC A,(HL)` (R142). -/
  | adcAMemHl
  /-- `ADC A,A` (R143). -/
  | adcAA
  /-- `ADC A,n` (R144). -/
  | adcAN
  /-- `SUB B` (R151). -/
  | subB
  /-- `SUB C` (R152). -/
  | subC
  /-- `SUB D` (R153). -/
  | subD
  /-- `SUB E` (R154). -/
  | subE
  /-- `SUB H` (R155). -/
  | subH
  /-- `SUB L` (R156). -/
  | subL
  /-- `SUB (HL)` (R157). -/
  | subMemHl
  /-- `SUB A` (R158). -/
  | subA
  /-- `SUB n` (R159). -/
  | subN
  /-- `SBC A,B` (R166). -/
  | sbcAB
  /-- `SBC A,C` (R167). -/
  | sbcAC
  /-- `SBC A,D` (R168). -/
  | sbcAD
  /-- `SBC A,E` (R169). -/
  | sbcAE
  /-- `SBC A,H` (R170). -/
  | sbcAH
  /-- `SBC A,L` (R171). -/
  | sbcAL
  /-- `SBC A,(HL)` (R172). -/
  | sbcAMemHl
  /-- `SBC A,A` (R173). -/
  | sbcAA
  /-- `SBC A,n` (R174). -/
  | sbcAN
  /-- `CP B` (R181). -/
  | cpB
  /-- `CP C` (R182). -/
  | cpC
  /-- `CP D` (R183). -/
  | cpD
  /-- `CP E` (R184). -/
  | cpE
  /-- `CP H` (R185). -/
  | cpH
  /-- `CP L` (R186). -/
  | cpL
  /-- `CP (HL)` (R187). -/
  | cpMemHl
  /-- `CP A` (R188). -/
  | cpA
  /-- `CP n` (R189). -/
  | cpN
deriving DecidableEq, Repr

/-- The family column of R55. -/
def Instr.family : Instr → Family
  | .addAB | .addAC | .addAD | .addAE | .addAH | .addAL | .addAMemHl | .addAA | .addAN => .add8
  | .addHlBc | .addHlDe | .addHlHl | .addHlSp => .add16
  | .addSpE => .addsp
  | .adcAB | .adcAC | .adcAD | .adcAE | .adcAH | .adcAL | .adcAMemHl | .adcAA | .adcAN => .adc
  | .subB | .subC | .subD | .subE | .subH | .subL | .subMemHl | .subA | .subN => .sub
  | .sbcAB | .sbcAC | .sbcAD | .sbcAE | .sbcAH | .sbcAL | .sbcAMemHl | .sbcAA | .sbcAN => .sbc
  | .cpB | .cpC | .cpD | .cpE | .cpH | .cpL | .cpMemHl | .cpA | .cpN => .cp

/-- The operand column of R55. -/
def Instr.operand : Instr → Operand
  | .addHlBc => .register16 .bc
  | .addHlDe => .register16 .de
  | .addHlHl => .register16 .hl
  | .addHlSp => .register16 .sp
  | .addAB | .adcAB | .subB | .sbcAB | .cpB => .register8 .b
  | .addAC | .adcAC | .subC | .sbcAC | .cpC => .register8 .c
  | .addAD | .adcAD | .subD | .sbcAD | .cpD => .register8 .d
  | .addAE | .adcAE | .subE | .sbcAE | .cpE => .register8 .e
  | .addAH | .adcAH | .subH | .sbcAH | .cpH => .register8 .h
  | .addAL | .adcAL | .subL | .sbcAL | .cpL => .register8 .l
  | .addAMemHl | .adcAMemHl | .subMemHl | .sbcAMemHl | .cpMemHl => .memory .hl
  | .addAA | .adcAA | .subA | .sbcAA | .cpA => .register8 .a
  | .addAN | .adcAN | .subN | .sbcAN | .cpN => .imm8
  | .addSpE => .immSigned8

/-- Whether one more byte follows the opcode byte: "`Imm8` and `ImmSigned8` mean one more byte; `Register8`,
`Register16` and `Memory` mean none" (R54). `Imm16`, which no decoded instruction has, is given none (R62). -/
def Operand.hasTrailing : Operand → Bool
  | .imm8 | .immSigned8 => true
  | .register8 _ | .register16 _ | .imm16 | .memory _ => false

/-- The length in bytes: 1 for the format `OP`, 2 for `OP_N` and `OP_E` (R45, R54). -/
def Instr.length (i : Instr) : Nat :=
  if i.operand.hasTrailing then 2 else 1

/-- An instruction as it stands in memory: the opcode's instruction and the immediate byte that follows it, if its
format has one (R45). -/
structure FullInstr where
  instr : Instr
  trailing : Option Byte
deriving DecidableEq, Repr

/-- The decode error of R196: the byte "echoed back in the error for diagnostics". -/
inductive DecodeError where
  | invalidOpcode (byte : Byte)
deriving DecidableEq, Repr

/-- Why a list of bytes is not read as an instruction: no byte at all, an unassigned opcode byte (R57), or a two-byte
format without its second byte (R45). Used by the decoder of byte lists only, never by the machine. -/
inductive BytesError where
  | noOpcode
  | invalidOpcode (byte : Byte)
  | noTrailing (instr : Instr)
deriving DecidableEq, Repr

end Sys2Proof
end

