-- ==== Sys2Proof/Machine/State.lean ====
section
/-! DEFINITION. The state of the machine, why a tick can fail, and the state after reset (spec/10_state.md,
spec/60_exceptions.md section 2, spec/70_reset_and_hazards.md rule R220). The ten registers are the complete
architectural state (R22); the other two fields are the memory parameter of R5 and the model's record of the count the
last completed tick returned. -/

namespace Sys2Proof.Machine

/-- The register file: exactly ten stored items (R10). No register is hard-wired. The pairs `BC`, `DE`, `HL` are views,
not stored (R12); `F` holds the four flags in bits 7 to 4 and zeros below (R15, R16). -/
structure RegFile where
  a : Byte
  b : Byte
  c : Byte
  d : Byte
  e : Byte
  h : Byte
  l : Byte
  f : Byte
  sp : Word
  pc : Word
deriving DecidableEq, Repr

/-- The bytes behind the memory-read capability (R30): the addresses that answer, strictly rising, each with its byte.
An address that is not listed is out of range, so the canonical form (`Memory.wf`) has no entry to leave out. -/
abbrev Memory := List Host.Cell

/-- The machine's state. `mem` is the parameter `Mem` of R5, held as plain data and never written by a tick (log
entry 1). `lastCycles` is the model's own field: the count that the last completed tick returned (R85, R225), an
output that nothing reads (log entry 2). -/
structure State where
  regs : RegFile
  mem : Memory
  lastCycles : Option Byte
deriving DecidableEq, Repr

/-- What the memory-read capability answers for an address it cannot read (R30). -/
inductive MemError where
  | outOfRange (address : Addr)
deriving DecidableEq, Repr

/-- The three errors of a tick: a closed sum with no cause code, cause register or priority number (R199). The tick
ends at once, returns no count and is terminal in the model (spec decision D8, log entry 4). All three are safe: the
model stops where the hardware would accept another tick. -/
inductive Fault where
  /-- Raised by decoding one of the 206 unassigned bytes (R57, R196). Safe. -/
  | invalidOpcode (byte : Byte)
  /-- Raised by a handler for an operand kind it does not accept; through a tick only by the five `(HL)` opcodes
  (R97, R197). Safe: a later revision might compute a value there (spec decision D7, log entry 5). -/
  | invalidOperand (operand : Operand) (family : Family)
  /-- Raised by a read of the tick that the memory capability refused (R31, R198). Safe. -/
  | failed (why : MemError)
deriving DecidableEq, Repr

/-- What the model does not accept. -/
inductive Refusal where
  /-- An instruction with no meaning yet: raised by an arm of `exec` only, and by none of them now. Safe. -/
  | notModelled (mnemonic : String)
  /-- A launch register file with a bit of `F[3:0]` set: raised by `launch`, never by a step (R222, U11, log
  entry 3). Safe. -/
  | launchFlagBits
deriving DecidableEq, Repr

/-- The all-zero register file of R24 and R220. -/
def RegFile.reset : RegFile :=
  { a := Config.resetByte, b := Config.resetByte, c := Config.resetByte, d := Config.resetByte, e := Config.resetByte,
    h := Config.resetByte, l := Config.resetByte, f := Config.resetByte,
    sp := Config.resetStackPointer, pc := Config.entryPoint }

/-- The machine right after reset: all ten registers zero (R24, R220), no address answering yet (log entry 1), no tick
completed (log entry 2). -/
def State.reset : State := { regs := RegFile.reset, mem := [], lastCycles := none }

end Sys2Proof.Machine
end

