-- ==== Sys2Proof/Machine/Ops.lean ====
section
/-! DEFINITION. The named operations: over the memory bytes, over the register file, and over a tick in progress,
`fetch8` and `raise` among them (spec/10_state.md sections 1 to 4, spec/20_memory.md, spec/41_decode_execute.md rule
R86, spec/60_exceptions.md rule R195). -/

namespace Sys2Proof.Machine

/-! ## The memory bytes: the parameter `Mem` as plain data -/

/-- What the capability answers at an address: a byte, or nothing where it is out of range (R30, R32). -/
def Memory.byteAt (m : Memory) (a : Addr) : Option Byte := m.lookup a.toNat

/-- The keys rise strictly, from `lo` on, and stay below `Config.addressCount`. -/
def Memory.risingFrom (lo : Nat) : Memory → Bool
  | [] => true
  | (k, _) :: m => decide (lo ≤ k) && decide (k < Config.addressCount) && Memory.risingFrom (k + 1) m

/-- The canonical form: addresses strictly rising and inside the address space of R32. -/
def Memory.wf (m : Memory) : Bool := Memory.risingFrom 0 m

/-- List a byte at an address key, in its place. -/
def Memory.insertAt (k : Nat) (v : Byte) : Memory → Memory
  | [] => [(k, v)]
  | (k', v') :: m =>
    if k < k' then (k, v) :: (k', v') :: m
    else if k = k' then (k, v) :: m
    else (k', v') :: Memory.insertAt k v m

/-- The host makes an address answer with a byte, between ticks (R41). No instruction does this: the core never writes
memory (R33). -/
def Memory.put (m : Memory) (a : Addr) (v : Byte) : Memory := Memory.insertAt a.toNat v m

/-- The host takes an address out of range, between ticks (R41). -/
def Memory.remove (m : Memory) (a : Addr) : Memory := m.filter fun cell => cell.1 != a.toNat

/-- Consecutive bytes from an address key on, as far as the address space reaches. -/
def Memory.bytesFrom (k : Nat) : List Byte → Memory
  | [] => []
  | v :: vs => if k < Config.addressCount then (k, v) :: Memory.bytesFrom (k + 1) vs else []

/-- "An in-memory byte buffer" at base 0: an address is in range when it is below the buffer's length (R30, spec
decision D9). -/
def Memory.ofBuffer (bytes : List Byte) : Memory := Memory.bytesFrom 0 bytes

/-! ## The register file -/

/-- `R8[n]`, the stored byte (R11). -/
def RegFile.read8 (r : RegFile) : Reg8 → Byte
  | .a => r.a
  | .b => r.b
  | .c => r.c
  | .d => r.d
  | .e => r.e
  | .h => r.h
  | .l => r.l

/-- `R8[n] <- v` replaces all 8 bits and changes no other stored item (R11). -/
def RegFile.write8 (r : RegFile) (w : Reg8) (v : Byte) : RegFile :=
  match w with
  | .a => { r with a := v }
  | .b => { r with b := v }
  | .c => { r with c := v }
  | .d => { r with d := v }
  | .e => { r with e := v }
  | .h => { r with h := v }
  | .l => { r with l := v }

/-- The pair view, "high byte first": `{hi, lo}` (R12). -/
def pairOf (hi lo : Byte) : Word := hi ++ lo

/-- Bits 15 to 8 of a pair (R13). -/
def highByte (v : Word) : Byte := v.extractLsb' 8 8

/-- Bits 7 to 0 of a pair (R13). -/
def lowByte (v : Word) : Byte := v.extractLsb' 0 8

/-- `R16[p]`: a pure bit composition of the two stored bytes, or `SP` (R12). -/
def RegFile.read16 (r : RegFile) : Reg16 → Word
  | .bc => pairOf r.b r.c
  | .de => pairOf r.d r.e
  | .hl => pairOf r.h r.l
  | .sp => r.sp

/-- `R16[p] <- v`: the inverse decomposition, both bytes at once, or `SP` (R13). -/
def RegFile.write16 (r : RegFile) (p : Reg16) (v : Word) : RegFile :=
  match p with
  | .bc => { r with b := highByte v, c := lowByte v }
  | .de => { r with d := highByte v, e := lowByte v }
  | .hl => { r with h := highByte v, l := lowByte v }
  | .sp => { r with sp := v }

/-- The flags read out of `F` (R16). -/
def RegFile.flags (r : RegFile) : FlagSet := unpack r.f

/-- `F <- pack(fl)`: the only way `F` is written (R16). -/
def RegFile.writeFlags (r : RegFile) (fl : FlagSet) : RegFile := { r with f := pack fl }

/-- The advance of the program counter by one, wrapping at `0xFFFF` (R20, spec decision D6, log entry 9). -/
def nextPc (pc : Word) : Word := pc + 1

/-! ## The same on the state -/

/-- `R8[w]` of the state. -/
def State.reg8 (s : State) (w : Reg8) : Byte := s.regs.read8 w

/-- `R16[p]` of the state. -/
def State.reg16 (s : State) (p : Reg16) : Word := s.regs.read16 p

/-- The flag set of the state. -/
def State.flags (s : State) : FlagSet := s.regs.flags

/-- `R8[w] <- v`. -/
def State.setReg8 (s : State) (w : Reg8) (v : Byte) : State := { s with regs := s.regs.write8 w v }

/-- `R16[p] <- v`. -/
def State.setReg16 (s : State) (p : Reg16) (v : Word) : State := { s with regs := s.regs.write16 p v }

/-- `F <- pack(fl)`. -/
def State.setFlags (s : State) (fl : FlagSet) : State := { s with regs := s.regs.writeFlags fl }

/-- The program counter one further. -/
def State.advancePc (s : State) : State := { s with regs := { s.regs with pc := nextPc s.regs.pc } }

/-- Record the count a completed tick returns (R85, log entry 2). -/
def State.setCycles (s : State) (count : Byte) : State := { s with lastCycles := some count }

/-! ## A tick in progress -/

/-- A part of a tick: done with a value, or ended by an error; the state it leaves; and the addresses it asked the
memory capability for, in order (R43). What a raised error leaves is R201's record, on which no claim may rest (spec
decision D8, log entry 4); the addresses are the model's record of the requests of spec decision D13 (log entry 16). -/
inductive Ran (α : Type) where
  | done (value : α) (left : State) (reads : List Addr)
  | raised (why : Fault) (left : State) (reads : List Addr)
deriving DecidableEq, Repr

/-- The state left. -/
def Ran.left {α : Type} : Ran α → State
  | .done _ s _ => s
  | .raised _ s _ => s

/-- The addresses asked for. -/
def Ran.reads {α : Type} : Ran α → List Addr
  | .done _ _ rs => rs
  | .raised _ _ rs => rs

/-- The value or the error. -/
def Ran.answer {α : Type} : Ran α → Except Fault α
  | .done v _ _ => .ok v
  | .raised e _ _ => .error e

/-- `r`, after the reads `rs`. -/
def Ran.afterReads {α : Type} (rs : List Addr) : Ran α → Ran α
  | .done v s rs' => .done v s (rs ++ rs')
  | .raised e s rs' => .raised e s (rs ++ rs')

/-- One part after another. After a raise "no later step of the pseudocode runs" and nothing is rolled back (R195). -/
def Ran.andThen {α β : Type} (r : Ran α) (next : α → State → Ran β) : Ran β :=
  match r with
  | .done v s rs => (next v s).afterReads rs
  | .raised e s rs => .raised e s rs

/-- `raise E`, the one way an exception is taken in this core: the tick ends with the error, which goes to the host;
nothing is saved, no mode changes, nothing is vectored (R195, R202). There is no return from it (R203). -/
def raise {α : Type} (e : Fault) (s : State) : Ran α := .raised e s []

/-- `MemRead(addr, 1)`: the byte, or `Failed(OutOfRange(addr))` (R31, R44). -/
def memRead (a : Addr) (s : State) : Ran Byte :=
  match s.mem.byteAt a with
  | some v => .done v s [a]
  | none => .raised (.failed (.outOfRange a)) s [a]

/-- `fetch8()`: the read at `PC` first and the advance second, so a failed read leaves `PC` where it was (R86). -/
def fetch8 (s : State) : Ran Byte :=
  (memRead s.regs.pc s).andThen fun b s1 => .done b s1.advancePc []

/-- How an instruction ends: with its static count returned and recorded, or with the error (R85, R93, R195). -/
def Ran.outcome (count : Byte) : Ran Unit → Host.Outcome State Fault Refusal
  | .done _ s _ => .next (s.setCycles count)
  | .raised e _ _ => .fault e

end Sys2Proof.Machine
end

