-- ==== Sys2Proof/Machine/Operands.lean ====
section
/-! DEFINITION. Operand resolution: what each operand kind becomes for each family, the whole matrix of
spec/41_decode_execute.md rule R92 (rules R94 to R99). A kind that a family does not accept is refused before anything
is fetched or written. -/

namespace Sys2Proof.Machine

/-- `sext_16(v)`: bit 7 copied into bits 15 to 8 (R27, R53). -/
def sext16 (v : Byte) : Word := v.signExtend 16

/-- `resolve8`, for ADD8, ADC, SUB, SBC and CP: a register is read (R94), an unsigned immediate is fetched (R95),
`Memory(HL)` is not implemented (R97), every other kind is invalid (R99). -/
def resolve8 (operand : Operand) (family : Family) (s : State) : Ran Byte :=
  match operand with
  | .register8 w => .done (s.reg8 w) s []
  | .imm8 => fetch8 s
  | .register16 w => raise (.invalidOperand (.register16 w) family) s
  | .imm16 => raise (.invalidOperand .imm16 family) s
  | .immSigned8 => raise (.invalidOperand .immSigned8 family) s
  | .memory m => raise (.invalidOperand (.memory m) family) s

/-- `resolve16`, for ADD16: a register pair or `SP` is read (R96); "immediate/memory operands are invalid here"
(R92, R99). -/
def resolve16 (operand : Operand) (family : Family) (s : State) : Ran Word :=
  match operand with
  | .register16 w => .done (s.reg16 w) s []
  | .register8 w => raise (.invalidOperand (.register8 w) family) s
  | .imm8 => raise (.invalidOperand .imm8 family) s
  | .imm16 => raise (.invalidOperand .imm16 family) s
  | .immSigned8 => raise (.invalidOperand .immSigned8 family) s
  | .memory m => raise (.invalidOperand (.memory m) family) s

/-- `resolveS8`, for ADDSP: "the only valid operand is a signed 8-bit immediate", fetched and sign-extended to 16 bits
(R92, R98). -/
def resolveS8 (operand : Operand) (family : Family) (s : State) : Ran Word :=
  match operand with
  | .immSigned8 => (fetch8 s).andThen fun e s1 => .done (sext16 e) s1 []
  | .register8 w => raise (.invalidOperand (.register8 w) family) s
  | .register16 w => raise (.invalidOperand (.register16 w) family) s
  | .imm8 => raise (.invalidOperand .imm8 family) s
  | .imm16 => raise (.invalidOperand .imm16 family) s
  | .memory m => raise (.invalidOperand (.memory m) family) s

end Sys2Proof.Machine
end

