-- ==== Sys2Proof/Machine/Adc.lean ====
section
/-! DEFINITION. The family `ADC A,x` (spec/45_adc.md): the handler, and the meaning of each of its instructions. A meaning runs in
the state after the opcode fetch, `PC` already past the opcode byte (rule R19 of spec/10_state.md). -/

namespace Sys2Proof.Machine

/-- The add-with-carry handler (R135): the Carry flag before the instruction is an input; the sum to `A`, all four flags
to `F`. -/
def handleAdc (operand : Operand) (s : State) : Ran Unit :=
  (resolve8 operand .adc s).andThen fun v s1 =>
    let r := adc8 (s1.reg8 .a) v s1.flags.c
    .done () ((s1.setReg8 .a r.value).setFlags r.flags) []

/-- `ADC A,B` (R136): returns 4. -/
def execAdcAB (s : State) : Host.Outcome State Fault Refusal :=
  (handleAdc (.register8 .b) s).outcome 4

/-- `ADC A,C` (R137): returns 4. -/
def execAdcAC (s : State) : Host.Outcome State Fault Refusal :=
  (handleAdc (.register8 .c) s).outcome 4

/-- `ADC A,D` (R138): returns 4. -/
def execAdcAD (s : State) : Host.Outcome State Fault Refusal :=
  (handleAdc (.register8 .d) s).outcome 4

/-- `ADC A,E` (R139): returns 4. -/
def execAdcAE (s : State) : Host.Outcome State Fault Refusal :=
  (handleAdc (.register8 .e) s).outcome 4

/-- `ADC A,H` (R140): returns 4. -/
def execAdcAH (s : State) : Host.Outcome State Fault Refusal :=
  (handleAdc (.register8 .h) s).outcome 4

/-- `ADC A,L` (R141): returns 4. -/
def execAdcAL (s : State) : Host.Outcome State Fault Refusal :=
  (handleAdc (.register8 .l) s).outcome 4

/-- `ADC A,(HL)` (R142): always `InvalidOperand(Memory(HL), ADC)`; its decoded count 8 is never returned. -/
def execAdcAMemHl (s : State) : Host.Outcome State Fault Refusal :=
  (handleAdc (.memory .hl) s).outcome 8

/-- `ADC A,A` (R143): returns 4. -/
def execAdcAA (s : State) : Host.Outcome State Fault Refusal :=
  (handleAdc (.register8 .a) s).outcome 4

/-- `ADC A,n` (R144): returns 8. -/
def execAdcAN (s : State) : Host.Outcome State Fault Refusal :=
  (handleAdc .imm8 s).outcome 8

end Sys2Proof.Machine
end

