-- ==== Sys2Proof/Machine/Add16.lean ====
section
/-! DEFINITION. The family `ADD HL,rr` (spec/43_add16.md): the handler, and the meaning of each of its instructions. A meaning runs in
the state after the opcode fetch, `PC` already past the opcode byte (rule R19 of spec/10_state.md). -/

namespace Sys2Proof.Machine

/-- The 16-bit add handler (R120): the sum to `HL`, all four flags to `F`. Zero is recomputed and HalfCarry is the carry
out of the low byte, as the source says and unlike the historical SM83 (spec decision D24). -/
def handleAdd16 (operand : Operand) (s : State) : Ran Unit :=
  (resolve16 operand .add16 s).andThen fun v s1 =>
    let r := add16 (s1.reg16 .hl) v
    .done () ((s1.setReg16 .hl r.value).setFlags r.flags) []

/-- `ADD HL,BC` (R121): returns 8. -/
def execAddHlBc (s : State) : Host.Outcome State Fault Refusal :=
  (handleAdd16 (.register16 .bc) s).outcome 8

/-- `ADD HL,DE` (R122): returns 8. -/
def execAddHlDe (s : State) : Host.Outcome State Fault Refusal :=
  (handleAdd16 (.register16 .de) s).outcome 8

/-- `ADD HL,HL` (R123): returns 8. -/
def execAddHlHl (s : State) : Host.Outcome State Fault Refusal :=
  (handleAdd16 (.register16 .hl) s).outcome 8

/-- `ADD HL,SP` (R124): returns 8. -/
def execAddHlSp (s : State) : Host.Outcome State Fault Refusal :=
  (handleAdd16 (.register16 .sp) s).outcome 8

end Sys2Proof.Machine
end

