-- ==== Sys2Proof/Machine/Add8.lean ====
section
/-! DEFINITION. The family `ADD A,x` (spec/42_add8.md): the handler, and the meaning of each of its instructions. A meaning runs in
the state after the opcode fetch, `PC` already past the opcode byte (rule R19 of spec/10_state.md). -/

namespace Sys2Proof.Machine

/-- The 8-bit add handler (R105): the sum to `A`, all four flags to `F`; the old `F` is no input. -/
def handleAdd8 (operand : Operand) (s : State) : Ran Unit :=
  (resolve8 operand .add8 s).andThen fun v s1 =>
    let r := add8 (s1.reg8 .a) v
    .done () ((s1.setReg8 .a r.value).setFlags r.flags) []

/-- `ADD A,B` (R106): returns 4. -/
def execAddAB (s : State) : Host.Outcome State Fault Refusal :=
  (handleAdd8 (.register8 .b) s).outcome 4

/-- `ADD A,C` (R107): returns 4. -/
def execAddAC (s : State) : Host.Outcome State Fault Refusal :=
  (handleAdd8 (.register8 .c) s).outcome 4

/-- `ADD A,D` (R108): returns 4. -/
def execAddAD (s : State) : Host.Outcome State Fault Refusal :=
  (handleAdd8 (.register8 .d) s).outcome 4

/-- `ADD A,E` (R109): returns 4. -/
def execAddAE (s : State) : Host.Outcome State Fault Refusal :=
  (handleAdd8 (.register8 .e) s).outcome 4

/-- `ADD A,H` (R110): returns 4. -/
def execAddAH (s : State) : Host.Outcome State Fault Refusal :=
  (handleAdd8 (.register8 .h) s).outcome 4

/-- `ADD A,L` (R111): returns 4. -/
def execAddAL (s : State) : Host.Outcome State Fault Refusal :=
  (handleAdd8 (.register8 .l) s).outcome 4

/-- `ADD A,(HL)` (R112): always `InvalidOperand(Memory(HL), ADD8)`; its decoded count 8 is never returned. -/
def execAddAMemHl (s : State) : Host.Outcome State Fault Refusal :=
  (handleAdd8 (.memory .hl) s).outcome 8

/-- `ADD A,A` (R113): returns 4. -/
def execAddAA (s : State) : Host.Outcome State Fault Refusal :=
  (handleAdd8 (.register8 .a) s).outcome 4

/-- `ADD A,n` (R114): returns 8. -/
def execAddAN (s : State) : Host.Outcome State Fault Refusal :=
  (handleAdd8 .imm8 s).outcome 8

end Sys2Proof.Machine
end

