-- ==== Sys2Proof/Machine/AddSp.lean ====
section
/-! DEFINITION. The family `ADD SP,e` (spec/44_addsp.md): the handler, and the meaning of each of its instructions. A meaning runs in
the state after the opcode fetch, `PC` already past the opcode byte (rule R19 of spec/10_state.md). -/

namespace Sys2Proof.Machine

/-- The stack-pointer add handler (R130): the unsigned 16-bit sum of `SP` and the sign-extended immediate to `SP`, and
the flags of that sum to `F` (the spec's own choice D5, log entry 8). -/
def handleAddSp (operand : Operand) (s : State) : Ran Unit :=
  (resolveS8 operand .addsp s).andThen fun v s1 =>
    let r := add16 (s1.reg16 .sp) v
    .done () ((s1.setReg16 .sp r.value).setFlags r.flags) []

/-- `ADD SP,e` (R131): returns 16. -/
def execAddSpE (s : State) : Host.Outcome State Fault Refusal :=
  (handleAddSp .immSigned8 s).outcome 16

end Sys2Proof.Machine
end

