-- ==== Sys2Proof/Machine/Cp.lean ====
section
/-! DEFINITION. The family `CP x` (spec/48_cp.md): the handler, and the meaning of each of its instructions. A meaning runs in
the state after the opcode fetch, `PC` already past the opcode byte (rule R19 of spec/10_state.md). -/

namespace Sys2Proof.Machine

/-- The compare handler (R180): the flags of a subtraction to `F`; `A` is NOT written. -/
def handleCp (operand : Operand) (s : State) : Ran Unit :=
  (resolve8 operand .cp s).andThen fun v s1 =>
    .done () (s1.setFlags (cp8 (s1.reg8 .a) v)) []

/-- `CP B` (R181): returns 4. -/
def execCpB (s : State) : Host.Outcome State Fault Refusal :=
  (handleCp (.register8 .b) s).outcome 4

/-- `CP C` (R182): returns 4. -/
def execCpC (s : State) : Host.Outcome State Fault Refusal :=
  (handleCp (.register8 .c) s).outcome 4

/-- `CP D` (R183): returns 4. -/
def execCpD (s : State) : Host.Outcome State Fault Refusal :=
  (handleCp (.register8 .d) s).outcome 4

/-- `CP E` (R184): returns 4. -/
def execCpE (s : State) : Host.Outcome State Fault Refusal :=
  (handleCp (.register8 .e) s).outcome 4

/-- `CP H` (R185): returns 4. -/
def execCpH (s : State) : Host.Outcome State Fault Refusal :=
  (handleCp (.register8 .h) s).outcome 4

/-- `CP L` (R186): returns 4. -/
def execCpL (s : State) : Host.Outcome State Fault Refusal :=
  (handleCp (.register8 .l) s).outcome 4

/-- `CP (HL)` (R187): always `InvalidOperand(Memory(HL), CP)`; its decoded count 8 is never returned. -/
def execCpMemHl (s : State) : Host.Outcome State Fault Refusal :=
  (handleCp (.memory .hl) s).outcome 8

/-- `CP A` (R188): returns 4. -/
def execCpA (s : State) : Host.Outcome State Fault Refusal :=
  (handleCp (.register8 .a) s).outcome 4

/-- `CP n` (R189): returns 8. -/
def execCpN (s : State) : Host.Outcome State Fault Refusal :=
  (handleCp .imm8 s).outcome 8

end Sys2Proof.Machine
end

