-- ==== Sys2Proof/Machine/Sbc.lean ====
section
/-! DEFINITION. The family `SBC A,x` (spec/47_sbc.md): the handler, and the meaning of each of its instructions. A meaning runs in
the state after the opcode fetch, `PC` already past the opcode byte (rule R19 of spec/10_state.md). -/

namespace Sys2Proof.Machine

/-- The subtract-with-carry handler (R165): `A` is the minuend and the Carry flag before the instruction is an input;
the difference to `A`, all four flags to `F`. -/
def handleSbc (operand : Operand) (s : State) : Ran Unit :=
  (resolve8 operand .sbc s).andThen fun v s1 =>
    let r := sbc8 (s1.reg8 .a) v s1.flags.c
    .done () ((s1.setReg8 .a r.value).setFlags r.flags) []

/-- `SBC A,B` (R166): returns 4. -/
def execSbcAB (s : State) : Host.Outcome State Fault Refusal :=
  (handleSbc (.register8 .b) s).outcome 4

/-- `SBC A,C` (R167): returns 4. -/
def execSbcAC (s : State) : Host.Outcome State Fault Refusal :=
  (handleSbc (.register8 .c) s).outcome 4

/-- `SBC A,D` (R168): returns 4. -/
def execSbcAD (s : State) : Host.Outcome State Fault Refusal :=
  (handleSbc (.register8 .d) s).outcome 4

/-- `SBC A,E` (R169): returns 4. -/
def execSbcAE (s : State) : Host.Outcome State Fault Refusal :=
  (handleSbc (.register8 .e) s).outcome 4

/-- `SBC A,H` (R170): returns 4. -/
def execSbcAH (s : State) : Host.Outcome State Fault Refusal :=
  (handleSbc (.register8 .h) s).outcome 4

/-- `SBC A,L` (R171): returns 4. -/
def execSbcAL (s : State) : Host.Outcome State Fault Refusal :=
  (handleSbc (.register8 .l) s).outcome 4

/-- `SBC A,(HL)` (R172): always `InvalidOperand(Memory(HL), SBC)`; its decoded count 8 is never returned. -/
def execSbcAMemHl (s : State) : Host.Outcome State Fault Refusal :=
  (handleSbc (.memory .hl) s).outcome 8

/-- `SBC A,A` (R173): returns 4. -/
def execSbcAA (s : State) : Host.Outcome State Fault Refusal :=
  (handleSbc (.register8 .a) s).outcome 4

/-- `SBC A,n` (R174): returns 8. -/
def execSbcAN (s : State) : Host.Outcome State Fault Refusal :=
  (handleSbc .imm8 s).outcome 8

end Sys2Proof.Machine
end

