-- ==== Sys2Proof/Machine/Sub.lean ====
section
/-! DEFINITION. The family `SUB x` (spec/46_sub.md): the handler, and the meaning of each of its instructions. A meaning runs in
the state after the opcode fetch, `PC` already past the opcode byte (rule R19 of spec/10_state.md). -/

namespace Sys2Proof.Machine

/-- The subtract handler (R150): `A` is the minuend; the difference to `A`, all four flags to `F`. -/
def handleSub (operand : Operand) (s : State) : Ran Unit :=
  (resolve8 operand .sub s).andThen fun v s1 =>
    let r := sub8 (s1.reg8 .a) v
    .done () ((s1.setReg8 .a r.value).setFlags r.flags) []

/-- `SUB B` (R151): returns 4. -/
def execSubB (s : State) : Host.Outcome State Fault Refusal :=
  (handleSub (.register8 .b) s).outcome 4

/-- `SUB C` (R152): returns 4. -/
def execSubC (s : State) : Host.Outcome State Fault Refusal :=
  (handleSub (.register8 .c) s).outcome 4

/-- `SUB D` (R153): returns 4. -/
def execSubD (s : State) : Host.Outcome State Fault Refusal :=
  (handleSub (.register8 .d) s).outcome 4

/-- `SUB E` (R154): returns 4. -/
def execSubE (s : State) : Host.Outcome State Fault Refusal :=
  (handleSub (.register8 .e) s).outcome 4

/-- `SUB H` (R155): returns 4. -/
def execSubH (s : State) : Host.Outcome State Fault Refusal :=
  (handleSub (.register8 .h) s).outcome 4

/-- `SUB L` (R156): returns 4. -/
def execSubL (s : State) : Host.Outcome State Fault Refusal :=
  (handleSub (.register8 .l) s).outcome 4

/-- `SUB (HL)` (R157): always `InvalidOperand(Memory(HL), SUB)`; its decoded count 8 is never returned. -/
def execSubMemHl (s : State) : Host.Outcome State Fault Refusal :=
  (handleSub (.memory .hl) s).outcome 8

/-- `SUB A` (R158): returns 4. -/
def execSubA (s : State) : Host.Outcome State Fault Refusal :=
  (handleSub (.register8 .a) s).outcome 4

/-- `SUB n` (R159): returns 8. -/
def execSubN (s : State) : Host.Outcome State Fault Refusal :=
  (handleSub .imm8 s).outcome 8

end Sys2Proof.Machine
end

