-- ==== Sys2Proof/Decode.lean ====
section
/-! DEFINITION. The decoder, total on any byte and any list of bytes, and the encoder. spec/30_encoding.md rules R45 to
R57 and spec/41_decode_execute.md rules R87 to R90. Of the 50 opcode bytes the source gives or fixes 11; the other 39
are the spec's own decision D3, from the standard SM83 table (log entry 7). -/

namespace Sys2Proof

/-- The decode rule table of one family: the rows of R55, opcode byte and instruction. -/
def table : Family → List (Byte × Instr)
  | .add8 =>
    [(0x80, .addAB), (0x81, .addAC), (0x82, .addAD), (0x83, .addAE),
     (0x84, .addAH), (0x85, .addAL), (0x86, .addAMemHl), (0x87, .addAA),
     (0xC6, .addAN)]
  | .add16 =>
    [(0x09, .addHlBc), (0x19, .addHlDe), (0x29, .addHlHl), (0x39, .addHlSp)]
  | .addsp =>
    [(0xE8, .addSpE)]
  | .adc =>
    [(0x88, .adcAB), (0x89, .adcAC), (0x8A, .adcAD), (0x8B, .adcAE),
     (0x8C, .adcAH), (0x8D, .adcAL), (0x8E, .adcAMemHl), (0x8F, .adcAA),
     (0xCE, .adcAN)]
  | .sub =>
    [(0x90, .subB), (0x91, .subC), (0x92, .subD), (0x93, .subE),
     (0x94, .subH), (0x95, .subL), (0x96, .subMemHl), (0x97, .subA),
     (0xD6, .subN)]
  | .sbc =>
    [(0x98, .sbcAB), (0x99, .sbcAC), (0x9A, .sbcAD), (0x9B, .sbcAE),
     (0x9C, .sbcAH), (0x9D, .sbcAL), (0x9E, .sbcAMemHl), (0x9F, .sbcAA),
     (0xDE, .sbcAN)]
  | .cp =>
    [(0xB8, .cpB), (0xB9, .cpC), (0xBA, .cpD), (0xBB, .cpE),
     (0xBC, .cpH), (0xBD, .cpL), (0xBE, .cpMemHl), (0xBF, .cpA),
     (0xFE, .cpN)]

/-- The registration order of the families (R88). The source does not give it: the spec's own choice D10, which cannot
be observed because the tables are disjoint (R56, log entry 13). -/
def familyOrder : List Family := [.add8, .add16, .addsp, .adc, .sub, .sbc, .cp]

/-- One family's decode rule: "defined only on that family's assigned byte values" (R88). -/
def claim (op : Byte) (fam : Family) : Option Instr := (table fam).lookup op

/-- The registry's algorithm: "try each family's rule in a fixed registration order; return the first family that
claims the byte; if none claim it, fail with the byte echoed back" (R88). -/
def decodeIn (order : List Family) (op : Byte) : Except DecodeError Instr :=
  match order.findSome? (claim op) with
  | some i => .ok i
  | none => .error (.invalidOpcode op)

/-- `decode`: a total function of the opcode byte; every byte outside the table of R55 gives `InvalidOpcode(byte)`
(R57, R87). -/
def decode (op : Byte) : Except DecodeError Instr := decodeIn familyOrder op

/-- The cycles column of R55; for the `(HL)` forms carried by the value but never returned (R59). -/
def Instr.cycles : Instr → Byte
  | .addAB | .addAC | .addAD | .addAE | .addAH | .addAL | .addAA | .adcAB
  | .adcAC | .adcAD | .adcAE | .adcAH | .adcAL | .adcAA | .subB | .subC
  | .subD | .subE | .subH | .subL | .subA | .sbcAB | .sbcAC | .sbcAD
  | .sbcAE | .sbcAH | .sbcAL | .sbcAA | .cpB | .cpC | .cpD | .cpE
  | .cpH | .cpL | .cpA => 4
  | .addHlBc | .addHlDe | .addHlHl | .addHlSp | .addAMemHl | .adcAMemHl | .subMemHl | .sbcAMemHl
  | .cpMemHl | .addAN | .adcAN | .subN | .sbcAN | .cpN => 8
  | .addSpE => 16

/-- The instruction value the decoder attaches to a row of R55 (R89). -/
def Instr.value (i : Instr) : InstrValue :=
  { family := i.family, operand := i.operand, cycles := i.cycles }

/-- The operand that the three-bit select `rrr` stands for: "B,C,D,E,H,L,(HL)-memory,A" numbered from 0 (R47). -/
def operandSelect (rrr : BitVec 3) : Operand :=
  match rrr.toNat with
  | 0 => .register8 .b
  | 1 => .register8 .c
  | 2 => .register8 .d
  | 3 => .register8 .e
  | 4 => .register8 .h
  | 5 => .register8 .l
  | 6 => .memory .hl
  | _ => .register8 .a

/-- The family that the operation select `ooo` stands for (R49); 4, 5 and 6 are unassigned. -/
def operationSelect (ooo : BitVec 3) : Option Family :=
  match ooo.toNat with
  | 0 => some .add8
  | 1 => some .adc
  | 2 => some .sub
  | 3 => some .sbc
  | 7 => some .cp
  | _ => none

/-- The register that the select `pp` of `ADD HL,rr` stands for (R48). -/
def pairSelect (pp : BitVec 2) : Reg16 :=
  match pp.toNat with
  | 0 => .bc
  | 1 => .de
  | 2 => .hl
  | _ => .sp

/-- The field view of the opcode byte: `10 ooo rrr` (R49), `11 ooo 110` (R50), `00 pp 1001` (R51) and `0xE8` (R52).
An equivalent reading of the table; the machine decodes from the table. -/
def decodeFields (op : Byte) : Option (Family × Operand) :=
  let ooo := op.extractLsb' 3 3
  let rrr := op.extractLsb' 0 3
  match (op.extractLsb' 6 2).toNat with
  | 2 => (operationSelect ooo).map fun fam => (fam, operandSelect rrr)
  | 3 =>
    if op = 0xE8 then some (.addsp, .immSigned8)
    else if rrr = 0b110 then (operationSelect ooo).map fun fam => (fam, .imm8)
    else none
  | 0 =>
    if op.extractLsb' 0 4 = 0b1001 then some (.add16, .register16 (pairSelect (op.extractLsb' 4 2)))
    else none
  | _ => none

/-- Decoding a list of bytes, the opcode byte first (R45): the instruction with its trailing byte, and the bytes that
are left. -/
def decodeBytes : List Byte → Except BytesError (FullInstr × List Byte)
  | [] => .error .noOpcode
  | op :: rest =>
    match decode op with
    | .error (.invalidOpcode b) => .error (.invalidOpcode b)
    | .ok i =>
      if i.operand.hasTrailing then
        match rest with
        | [] => .error (.noTrailing i)
        | n :: rest' => .ok ({ instr := i, trailing := some n }, rest')
      else .ok ({ instr := i, trailing := none }, rest)

/-! The encoder. -/

/-- The opcode column of R55, written from the headings of the instruction rules R106 to R189. -/
def opcode : Instr → Byte
  | .addAB => 0b10000000
  | .addAC => 0b10000001
  | .addAD => 0b10000010
  | .addAE => 0b10000011
  | .addAH => 0b10000100
  | .addAL => 0b10000101
  | .addAMemHl => 0b10000110
  | .addAA => 0b10000111
  | .addAN => 0b11000110
  | .addHlBc => 0b00001001
  | .addHlDe => 0b00011001
  | .addHlHl => 0b00101001
  | .addHlSp => 0b00111001
  | .addSpE => 0b11101000
  | .adcAB => 0b10001000
  | .adcAC => 0b10001001
  | .adcAD => 0b10001010
  | .adcAE => 0b10001011
  | .adcAH => 0b10001100
  | .adcAL => 0b10001101
  | .adcAMemHl => 0b10001110
  | .adcAA => 0b10001111
  | .adcAN => 0b11001110
  | .subB => 0b10010000
  | .subC => 0b10010001
  | .subD => 0b10010010
  | .subE => 0b10010011
  | .subH => 0b10010100
  | .subL => 0b10010101
  | .subMemHl => 0b10010110
  | .subA => 0b10010111
  | .subN => 0b11010110
  | .sbcAB => 0b10011000
  | .sbcAC => 0b10011001
  | .sbcAD => 0b10011010
  | .sbcAE => 0b10011011
  | .sbcAH => 0b10011100
  | .sbcAL => 0b10011101
  | .sbcAMemHl => 0b10011110
  | .sbcAA => 0b10011111
  | .sbcAN => 0b11011110
  | .cpB => 0b10111000
  | .cpC => 0b10111001
  | .cpD => 0b10111010
  | .cpE => 0b10111011
  | .cpH => 0b10111100
  | .cpL => 0b10111101
  | .cpMemHl => 0b10111110
  | .cpA => 0b10111111
  | .cpN => 0b11111110

/-- The bytes of an instruction at ascending addresses: the opcode byte, then the immediate byte of the formats that
have one (R45). -/
def encode (f : FullInstr) : List Byte := opcode f.instr :: f.trailing.toList

/-! The host's question: what the decoder reads from a row's word. -/

/-- Byte number `k` of a word whose bit 0 is the least significant bit of its first byte, the bits from `nbits` up
being zero. -/
def tableByte (nbits w k : Nat) : Byte := BitVec.ofNat 8 (w % 2 ^ nbits / 256 ^ k)

/-- The instruction the decoder reads from a word of the opcode table: the longest instruction has two bytes (R45). -/
def decodeTableWord (nbits w : Nat) : Option Instr :=
  match decodeBytes [tableByte nbits w 0, tableByte nbits w 1] with
  | .ok (f, _) => some f.instr
  | .error _ => none

end Sys2Proof
end

