-- ==== Sys2Proof/Machine/Fetch.lean ====
section
/-! DEFINITION. Fetching and decoding the next instruction, and placing one where it will be fetched. -/

namespace Sys2Proof.Machine

/-- The error of the tick that a decode error becomes: the same byte, "echoed back in the error" (R196). -/
def faultOfDecode : DecodeError → Fault
  | .invalidOpcode b => .invalidOpcode b

/-- The first two lines of `tick`: `op <- fetch8(); inst <- decode(op)` (R85). The second byte of an instruction is not
read here (R54). -/
def fetchDecode (s : State) : Ran Instr :=
  (fetch8 s).andThen fun op s1 =>
    match decode op with
    | .ok i => .done i s1 []
    | .error e => raise (faultOfDecode e) s1

/-- The bytes of a word of the opcode table placed at `PC` and at the address after it, as the host loads a program
(R3, R37, log entry 10). -/
def placeWord (m : Memory) (pc : Word) (nbits w : Nat) : Memory :=
  (m.put pc (tableByte nbits w 0)).put (nextPc pc) (tableByte nbits w 1)

end Sys2Proof.Machine
end

