-- ==== Sys2Proof/Machine/Step.lean ====
section
/-! DEFINITION. One step is one `tick` (spec/00_scope.md rule R6): the opcode byte is fetched and decoded, then the
instruction runs in the state whose `PC` is past the opcode byte (spec/41_decode_execute.md rule R85). -/

namespace Sys2Proof.Machine

/-- One tick: the next state with the returned count recorded, or the error that ended it (R7, R85). -/
def step (s : State) : Host.Outcome State Fault Refusal :=
  match fetchDecode s with
  | .done i s1 _ => exec i s1
  | .raised e _ _ => .fault e

/-- The state with an instruction of the opcode table stored where the next step fetches it: at `PC` (log entry 10). -/
def State.withFetchWord (s : State) (nbits w : Nat) : State :=
  { s with mem := placeWord s.mem s.regs.pc nbits w }

end Sys2Proof.Machine
end

