-- ==== Sys2Proof/Machine/Execute.lean ====
section
/-! DEFINITION. The core as spec/41_decode_execute.md writes it: `execute` on an instruction value, one handler per family
(rule R93), and `tick` (rule R85). `step` of Step.lean is the same machine by the arms of `exec`; that the two agree is an
obligation. -/

namespace Sys2Proof.Machine

/-- The one handler that belongs to a family (R91, R93). -/
def handle : Family → Operand → State → Ran Unit
  | .add8 => handleAdd8
  | .add16 => handleAdd16
  | .addsp => handleAddSp
  | .adc => handleAdc
  | .sub => handleSub
  | .sbc => handleSbc
  | .cp => handleCp

/-- `execute(inst)`: the handler of the family on the operand; if it completes, the static count (R93, R90). Defined on
every instruction value, hand-built ones too (R92, spec decision D18). -/
def execute (v : InstrValue) (s : State) : Ran Byte :=
  (handle v.family v.operand s).andThen fun _ s1 => .done v.cycles s1 []

/-- `tick()`: fetch, decode, execute; the count, or the error (R85). What it leaves after an error is the table of R201,
recorded for tests of the error paths only: no claim may rest on it (spec decision D8). -/
def tick (s : State) : Ran Byte :=
  (fetchDecode s).andThen fun i s1 => execute i.value s1

/-- A tick as an outcome of the machine: the count recorded, or the fault. -/
def outcomeOfTick : Ran Byte → Host.Outcome State Fault Refusal
  | .done count s _ => .next (s.setCycles count)
  | .raised e _ _ => .fault e

end Sys2Proof.Machine
end

