-- ==== Sys2Proof/Machine/HostPort.lean ====
section
/-! DEFINITION. What the host can do between ticks (spec/00_scope.md rule R9, spec/70_reset_and_hazards.md rules R220 to
R226, spec/20_memory.md rule R41), and a run of ticks. -/

namespace Sys2Proof.Machine

/-- Construction, which is reset: all ten registers zero; the memory behind the capability is supplied by the host and
not touched (R9, R220, spec decision D11). -/
def construct (m : Memory) : State := { State.reset with mem := m }

/-- Reset of a running core: all ten registers zero, the memory as it is (R220). -/
def State.resetCore (s : State) : State := construct s.mem

/-- The launch state: the host may preset any of the ten registers before the first tick, with `F[3:0] = 0`; another
register file is refused (R222, U11, log entry 3). -/
def launch (r : RegFile) (m : Memory) : Except Refusal State :=
  if r.f &&& 0x0F = 0 then .ok { construct m with regs := r } else .error .launchFlagBits

/-- The read-only snapshot: every register of R10, nothing changed (R9, spec decision D21). -/
def State.snapshot (s : State) : RegFile := s.regs

/-- The host changes the memory between two ticks; the core caches nothing, so the next tick reads the new bytes
(R41). -/
def State.attach (s : State) (m : Memory) : State := { s with mem := m }

/-- Why a run ended: after the ticks the host chose, or at the first tick that returned an error (R226). A refusal
cannot occur; it is named because the interface has it. -/
inductive Ending where
  | ticksDone
  | fault (why : Fault)
  | refused (why : Refusal)
deriving DecidableEq, Repr

/-- A run: the counts its completed ticks returned, in order, for the host to add up (R8); the state after the last
completed tick; and why it ended (R226). -/
structure Run where
  counts : List Byte
  last : State
  ending : Ending
deriving DecidableEq, Repr

/-- The run of at most `n` ticks from a state: the host stops it after that many, or a tick returns an error first
(R226, spec decision D22). -/
def runTicks : Nat → State → Run
  | 0, s => { counts := [], last := s, ending := .ticksDone }
  | n + 1, s =>
    match step s with
    | .next s' =>
      let rest := runTicks n s'
      { rest with counts := s'.lastCycles.toList ++ rest.counts }
    | .fault e => { counts := [], last := s, ending := .fault e }
    | .refused r => { counts := [], last := s, ending := .refused r }

/-- The parameter `Ticks` of R5: "natural number or until first fault" (R226, spec decision D22). -/
inductive Ticks where
  | count (n : Nat)
  | untilFirstFault
deriving DecidableEq, Repr

/-- `r` is the run from `s` under a value of `Ticks`. After a chosen number of ticks there is always one; until the
first fault there is one exactly when some tick returns an error, and the host's calls go on for ever otherwise (log
entry 18). -/
def IsRun : Ticks → State → Run → Prop
  | .count n, s, r => r = runTicks n s
  | .untilFirstFault, s, r => ∃ n e, r = runTicks n s ∧ r.ending = .fault e

/-- However many ticks the host calls from `s`, none returns an error: the run until the first fault does not end. -/
def NeverFaults (s : State) : Prop := ∀ n, (runTicks n s).ending = .ticksDone

end Sys2Proof.Machine
end

