-- ==== Sys2Proof/Safety.lean ====
section
/-! DEFINITION. What claims call a good state and a safe run. -/

namespace Sys2Proof.Machine

/-- The invariant of the machine: bits 3 to 0 of `F` are zero (R16) and the memory bytes are in canonical form. -/
def State.Inv (s : State) : Prop := s.regs.f &&& 0x0F = 0 ∧ s.mem.wf = true

/-- A run that ends because the host stopped it, not because a tick failed (R226). -/
def SafeFor (ticks : Nat) (s : State) : Prop := (runTicks ticks s).ending = .ticksDone

end Sys2Proof.Machine
end

