-- ==== Sys2Proof/WellFormed.lean ====
section
/-! DEFINITION. The checks on syntax. An `Instr` has no field, so every one is well formed. An instruction VALUE is well
formed when it is one the decoder can build (spec/30_encoding.md rules R55 and R59), and an instruction WITH ITS
TRAILING BYTE when it has that byte exactly if its format does (R45). Smoke tests: Sys2Proof/Tests/Slice0.lean. -/

namespace Sys2Proof

/-- The operand kinds that the decode tables give each family (R46, R55): `Memory(HL)` is assigned to the 8-bit
families although their handlers refuse it (R97). -/
def Family.assigns : Family → Operand → Bool
  | .add8, .register8 _ | .add8, .imm8 | .add8, .memory .hl => true
  | .adc, .register8 _ | .adc, .imm8 | .adc, .memory .hl => true
  | .sub, .register8 _ | .sub, .imm8 | .sub, .memory .hl => true
  | .sbc, .register8 _ | .sbc, .imm8 | .sbc, .memory .hl => true
  | .cp, .register8 _ | .cp, .imm8 | .cp, .memory .hl => true
  | .add16, .register16 _ => true
  | .addsp, .immSigned8 => true
  | _, _ => false

/-- The static cycle count as R59 gives it, by family and operand kind: an 8-bit register operand costs 4; a memory or
immediate operand of an 8-bit family, and every `ADD HL,rr`, 8; `ADD SP,e` 16. -/
def staticCycles (family : Family) (operand : Operand) : Byte :=
  match family, operand with
  | .addsp, _ => 16
  | .add16, _ => 8
  | _, .register8 _ => 4
  | _, _ => 8

/-- The value is one the decoder can build: its operand kind is assigned to its family, and its count is R59's. -/
def InstrValue.wellFormed (v : InstrValue) : Bool :=
  v.family.assigns v.operand && v.cycles == staticCycles v.family v.operand

/-- The trailing byte is there exactly when the format has one (R45, R54). -/
def FullInstr.wellFormed (f : FullInstr) : Bool :=
  f.trailing.isSome == f.instr.operand.hasTrailing

end Sys2Proof
end

