-- ==== Sys2Proof/Certificates/Slice0/Obligations.lean ====
section
/-! DEFINITION. The statements for the provers. The effects below are written in exact integer arithmetic from the
spec's rules, apart from the model's own bit-vector primitives; `pack` and `unpack` alone fix where a flag stands in
`F` (the spec's own choice D1, log entry 6). -/

namespace Sys2Proof.Claims
open Sys2Proof Sys2Proof.Machine

/-- `A` and `F` replaced, nothing else. -/
def writing8 (value : Nat) (fl : FlagSet) (s : State) : State :=
  { s with regs := { s.regs with a := BitVec.ofNat 8 value, f := pack fl } }

/-- R105 and R67: `A <- (A + v) mod 256` and the four flags. -/
def addEffect (v : Byte) (s : State) : State :=
  let a := s.regs.a.toNat
  let x := v.toNat
  writing8 ((a + x) % 256)
    { z := decide ((a + x) % 256 = 0), n := false, h := decide (a % 16 + x % 16 > 15), c := decide (a + x > 255) } s

/-- R135 and the closed form of R74: `A <- (A + v + c) mod 256` with the old Carry `c`, and the four flags. -/
def adcEffect (v : Byte) (s : State) : State :=
  let a := s.regs.a.toNat
  let x := v.toNat
  let c := (unpack s.regs.f).c.toNat
  writing8 ((a + x + c) % 256)
    { z := decide ((a + x + c) % 256 = 0), n := false, h := decide (a % 16 + x % 16 + c > 15)
      c := decide (a + x + c > 255) } s

/-- R150 and R69: `A <- (A - v) mod 256` and the four flags. -/
def subEffect (v : Byte) (s : State) : State :=
  let a := s.regs.a.toNat
  let x := v.toNat
  writing8 ((256 + a - x) % 256)
    { z := decide (a = x), n := true, h := decide (a % 16 < x % 16), c := decide (a < x) } s

/-- R165 and its closed form: `A <- (A - v - c) mod 256` with the old Carry `c`, and the four flags. -/
def sbcEffect (v : Byte) (s : State) : State :=
  let a := s.regs.a.toNat
  let x := v.toNat
  let c := (unpack s.regs.f).c.toNat
  writing8 ((512 + a - x - c) % 256)
    { z := decide ((512 + a - x - c) % 256 = 0), n := true, h := decide (a % 16 < x % 16 + c)
      c := decide (a < x + c) } s

/-- R180 and R72: the flags of the subtraction; `A` is not written. -/
def cpEffect (v : Byte) (s : State) : State :=
  let a := s.regs.a.toNat
  let x := v.toNat
  writing8 a { z := decide (a = x), n := true, h := decide (a % 16 < x % 16), c := decide (a < x) } s

/-- The pair value `{hi, lo}` of R12. -/
def pairValue (hi lo : Byte) : Nat := hi.toNat * 256 + lo.toNat

/-- R120 and R68 on the pair `HL` and an operand `x` from 0 to 65535: `H` and `L` take the high and the low byte of
`(HL + x) mod 65536`, and the four flags. -/
def addHlEffect (x : Nat) (s : State) : State :=
  let hl := pairValue s.regs.h s.regs.l
  let sum := (hl + x) % 65536
  { s with regs := { s.regs with
      h := BitVec.ofNat 8 (sum / 256)
      l := BitVec.ofNat 8 (sum % 256)
      f := pack { z := decide (sum = 0), n := false, h := decide (hl % 256 + x % 256 > 255)
                  c := decide (hl + x > 65535) } } }

/-- R130 on `SP` and the raw byte `e`: `SP + e` as a signed displacement wrapped to 16 bits, and the flags of the
unsigned sum of `SP` and the pattern of `e`. That `F` is written is the spec's own choice D5 (log entry 8). -/
def addSpEffect (e : Byte) (s : State) : State :=
  let sp := s.regs.sp.toNat
  let pattern := if e.toNat < 128 then e.toNat else 65280 + e.toNat
  { s with regs := { s.regs with
      sp := BitVec.ofInt 16 (sp + e.toInt)
      f := pack { z := decide ((sp + pattern) % 65536 = 0), n := false, h := decide (sp % 256 + e.toNat > 255)
                  c := decide (sp + pattern > 65535) } } }

/-- The program counter replaced. -/
def withPc (pc : Word) (s : State) : State := { s with regs := { s.regs with pc := pc } }

/-- The tick's returned count recorded. -/
def returning (count : Byte) (s : State) : State := { s with lastCycles := some count }

/-- A one-byte instruction that executes: its opcode byte decodes to it; `exec` completes in every state with the
effect and the count; a tick that fetches the byte does the same with `PC` one further (wrapping, R20); a tick that
cannot read its opcode byte fails. -/
def RegisterForm (op : Byte) (i : Instr) (count : Byte) (effect : State → State) : Prop :=
  decode op = .ok i ∧
  (∀ s : State, exec i s = .next (returning count (effect s))) ∧
  (∀ s : State, s.mem.byteAt s.regs.pc = some op →
    step s = .next (returning count (withPc (s.regs.pc + 1) (effect s)))) ∧
  (∀ s : State, s.mem.byteAt s.regs.pc = none → step s = .fault (.failed (.outOfRange s.regs.pc)))

/-- A two-byte instruction that executes: the same, with the immediate byte read at `PC` by `exec`, and at the address
after the opcode byte by the tick; where it cannot be read, both fail with its address. -/
def ImmediateForm (op : Byte) (i : Instr) (count : Byte) (effect : Byte → State → State) : Prop :=
  decode op = .ok i ∧
  (∀ (s : State) (n : Byte), s.mem.byteAt s.regs.pc = some n →
    exec i s = .next (returning count (withPc (s.regs.pc + 1) (effect n s)))) ∧
  (∀ s : State, s.mem.byteAt s.regs.pc = none → exec i s = .fault (.failed (.outOfRange s.regs.pc))) ∧
  (∀ (s : State) (n : Byte), s.mem.byteAt s.regs.pc = some op → s.mem.byteAt (s.regs.pc + 1) = some n →
    step s = .next (returning count (withPc (s.regs.pc + 2) (effect n s)))) ∧
  (∀ s : State, s.mem.byteAt s.regs.pc = some op → s.mem.byteAt (s.regs.pc + 1) = none →
    step s = .fault (.failed (.outOfRange (s.regs.pc + 1)))) ∧
  (∀ s : State, s.mem.byteAt s.regs.pc = none → step s = .fault (.failed (.outOfRange s.regs.pc)))

/-- What the handler that `execute` calls for an 8-bit family does on each operand kind (R92): a register operand gives the effect of its value and
reads nothing; the unsigned immediate is fetched at `PC`, which advances, and gives its effect; where it cannot be read
the handler raises `Failed`; every other kind is refused before any read. -/
def Handler8 (family : Family) (effect : Byte → State → State) : Prop :=
  (∀ (s : State) (w : Reg8), handle family (.register8 w) s = .done () (effect (s.regs.read8 w) s) []) ∧
  (∀ (s : State) (n : Byte), s.mem.byteAt s.regs.pc = some n →
    handle family .imm8 s = .done () (withPc (s.regs.pc + 1) (effect n s)) [s.regs.pc]) ∧
  (∀ s : State, s.mem.byteAt s.regs.pc = none →
    (handle family .imm8 s).answer = .error (.failed (.outOfRange s.regs.pc))) ∧
  (∀ (s : State) (o : Operand), (∀ w, o ≠ .register8 w) → o ≠ .imm8 →
    (handle family o s).answer = .error (.invalidOperand o family) ∧ (handle family o s).reads = [])

/-- The cells of the table of R92 that hold a value. -/
def accepts : Family → Operand → Bool
  | .add8, .register8 _ | .adc, .register8 _ | .sub, .register8 _ | .sbc, .register8 _ | .cp, .register8 _ => true
  | .add8, .imm8 | .adc, .imm8 | .sub, .imm8 | .sbc, .imm8 | .cp, .imm8 => true
  | .add16, .register16 _ => true
  | .addsp, .immSigned8 => true
  | _, _ => false

/-- The 206 unassigned bytes as R57 lists them. -/
def unassignedRanges : List (Nat × Nat) :=
  [(0x00, 0x08), (0x0A, 0x18), (0x1A, 0x28), (0x2A, 0x38), (0x3A, 0x7F), (0xA0, 0xB7), (0xC0, 0xC5), (0xC7, 0xCD),
   (0xCF, 0xD5), (0xD7, 0xDD), (0xDF, 0xE7), (0xE9, 0xFD), (0xFF, 0xFF)]

/-- A byte is in one of those ranges. -/
def unassigned (b : Byte) : Bool := unassignedRanges.any fun r => decide (r.1 ≤ b.toNat) && decide (b.toNat ≤ r.2)

/-- The same counts and last state, ended by a fault. -/
def endingWith (e : Fault) (r : Run) : Run := { r with ending := .fault e }

/-- The same outcome with other memory bytes and the same registers and count. -/
def withMemory (m : Memory) : Host.Outcome State Fault Refusal → Host.Outcome State Fault Refusal
  | .next t => .next { t with mem := m }
  | .fault e => .fault e
  | .refused r => .refused r

/-- The five opcodes whose operand is `Memory(HL)` (R97), each with its family. -/
def memoryForms : List (Byte × Instr × Family) :=
  [(0x86, .addAMemHl, .add8), (0x8E, .adcAMemHl, .adc), (0x96, .subMemHl, .sub), (0x9E, .sbcAMemHl, .sbc),
   (0xBE, .cpMemHl, .cp)]

/-- The forms that write `A` and `F` alone: `ADD A`, `ADC A`, `SUB` and `SBC A` with a register or an immediate. -/
def accumulatorForms : List Instr :=
  [.addAB, .addAC, .addAD, .addAE, .addAH, .addAL, .addAA, .addAN,
   .adcAB, .adcAC, .adcAD, .adcAE, .adcAH, .adcAL, .adcAA, .adcAN,
   .subB, .subC, .subD, .subE, .subH, .subL, .subA, .subN,
   .sbcAB, .sbcAC, .sbcAD, .sbcAE, .sbcAH, .sbcAL, .sbcAA, .sbcAN]

/-- The forms that write `F` alone: `CP` with a register or an immediate. -/
def compareForms : List Instr := [.cpB, .cpC, .cpD, .cpE, .cpH, .cpL, .cpA, .cpN]

/-- The forms that write `H`, `L` and `F` alone. -/
def addHlForms : List Instr := [.addHlBc, .addHlDe, .addHlHl, .addHlSp]

/-- Every byte of memory reads as before. -/
def SameBytes (s t : State) : Prop := ∀ a : Addr, t.mem.byteAt a = s.mem.byteAt a

end Sys2Proof.Claims

open Sys2Proof Sys2Proof.Machine Sys2Proof.Claims

/-- add8 and add16 return the wrapped sum and the four flags of their formulas. Formalises R67, R68. -/
def Obligations.AddPrimitivesFollowTheirFormulas : Prop :=
  (∀ a b : Byte,
    (add8 a b).value.toNat = (a.toNat + b.toNat) % 256 ∧
    (add8 a b).flags =
      { z := decide ((a.toNat + b.toNat) % 256 = 0), n := false
        h := decide ((a.toNat &&& 0x0F) + (b.toNat &&& 0x0F) > 0x0F), c := decide (a.toNat + b.toNat > 255) } ∧
    add8 a b = add8 b a) ∧
  (∀ a b : Word,
    (add16 a b).value.toNat = (a.toNat + b.toNat) % 65536 ∧
    (add16 a b).flags =
      { z := decide ((a.toNat + b.toNat) % 65536 = 0), n := false
        h := decide ((a.toNat &&& 0x00FF) + (b.toNat &&& 0x00FF) > 0x00FF), c := decide (a.toNat + b.toNat > 65535) })

/-- sub8, sub16 and cp8 return the wrapped difference and the flags of their formulas. Formalises R69, R70, R72. -/
def Obligations.SubtractPrimitivesFollowTheirFormulas : Prop :=
  (∀ a b : Byte,
    (sub8 a b).value.toNat = (256 + a.toNat - b.toNat) % 256 ∧
    (sub8 a b).flags =
      { z := decide ((256 + a.toNat - b.toNat) % 256 = 0), n := true
        h := decide ((a.toNat &&& 0x0F) < (b.toNat &&& 0x0F)), c := decide (a.toNat < b.toNat) } ∧
    ((sub8 a b).flags.z = true ↔ a = b)) ∧
  (∀ a b : Word,
    (sub16 a b).value.toNat = (65536 + a.toNat - b.toNat) % 65536 ∧
    (sub16 a b).flags =
      { z := decide ((65536 + a.toNat - b.toNat) % 65536 = 0), n := true
        h := decide ((a.toNat &&& 0x00FF) < (b.toNat &&& 0x00FF)), c := decide (a.toNat < b.toNat) }) ∧
  (∀ a b : Byte, cp8 a b = (sub8 a b).flags ∧
    cp8 a b = { z := decide (a = b), n := true, h := decide ((a.toNat &&& 0x0F) < (b.toNat &&& 0x0F))
                c := decide (a.toNat < b.toNat) })

/-- The two-step add-with-carry equals the single three-operand sum. Rests on 40_alu_primitives.md section 4 (R74,
derived there from R73).
The spec marks the closed form as its own derivation from R73. -/
def Obligations.AddWithCarryHasTheClosedForm : Prop :=
  ∀ (a b : Byte) (c : Bool),
    (adc8 a b c).value.toNat = (a.toNat + b.toNat + c.toNat) % 256 ∧
    (adc8 a b c).flags =
      { z := decide ((a.toNat + b.toNat + c.toNat) % 256 = 0), n := false
        h := decide (a.toNat % 16 + b.toNat % 16 + c.toNat > 15), c := decide (a.toNat + b.toNat + c.toNat > 255) } ∧
    adc8 a b false = add8 a b

/-- The two-step subtract-with-carry equals the single three-operand difference. Rests on 40_alu_primitives.md
section 3 (R75, derived there from R71).
The spec marks the closed form as its own derivation from R71. -/
def Obligations.SubtractWithCarryHasTheClosedForm : Prop :=
  ∀ (a b : Byte) (c : Bool),
    (sbc8 a b c).value.toNat = (512 + a.toNat - b.toNat - c.toNat) % 256 ∧
    (sbc8 a b c).flags =
      { z := decide ((512 + a.toNat - b.toNat - c.toNat) % 256 = 0), n := true
        h := decide (a.toNat % 16 < b.toNat % 16 + c.toNat), c := decide (a.toNat < b.toNat + c.toNat) } ∧
    sbc8 a b false = sub8 a b

/-- A register pair is its two bytes, high byte first, and a pair write is the inverse. Rests on 10_state.md section
2 (R12, and R13, derived there from R12).
The pair write is the spec's own derivation from R12. -/
def Obligations.PairViewsAreByteCompositions : Prop :=
  (∀ r : RegFile,
    (r.read16 .bc).toNat = r.b.toNat * 256 + r.c.toNat ∧ (r.read16 .de).toNat = r.d.toNat * 256 + r.e.toNat ∧
    (r.read16 .hl).toNat = r.h.toNat * 256 + r.l.toNat ∧ r.read16 .sp = r.sp) ∧
  (∀ (r : RegFile) (p : Reg16) (v : Word), (r.write16 p v).read16 p = v) ∧
  (∀ (r : RegFile) (v : Word),
    r.write16 .hl v = { r with h := BitVec.ofNat 8 (v.toNat / 256), l := BitVec.ofNat 8 (v.toNat % 256) } ∧
    r.write16 .bc v = { r with b := BitVec.ofNat 8 (v.toNat / 256), c := BitVec.ofNat 8 (v.toNat % 256) } ∧
    r.write16 .de v = { r with d := BitVec.ofNat 8 (v.toNat / 256), e := BitVec.ofNat 8 (v.toNat % 256) } ∧
    r.write16 .sp v = { r with sp := v })

/-- pack and unpack put Z, N, H, C in bits 7 to 4 of F and zeros below. Rests on 10_state.md section 3 (R15, R16;
decisions D1, D2).
The bit positions are the spec's own choices D1 and D2 (log entry 6). -/
def Obligations.FlagsStandInTheUpperNibble : Prop :=
  (∀ fl : FlagSet,
    (pack fl).toNat = fl.z.toNat * 0x80 + fl.n.toNat * 0x40 + fl.h.toNat * 0x20 + fl.c.toNat * 0x10 ∧
    pack fl &&& 0x0F = 0 ∧ unpack (pack fl) = fl) ∧
  (∀ f : Byte, f &&& 0x0F = 0 → pack (unpack f) = f)

/-- After reset every stored item is zero and the first fetch is from address 0. Formalises R24. -/
def Obligations.ResetClearsEveryRegister : Prop :=
  State.reset.regs =
    { a := 0x00, b := 0x00, c := 0x00, d := 0x00, e := 0x00, h := 0x00, l := 0x00, f := 0x00, sp := 0x0000, pc := 0x0000 } ∧
  State.reset.regs.read16 .bc = 0x0000 ∧ State.reset.regs.read16 .de = 0x0000 ∧ State.reset.regs.read16 .hl = 0x0000 ∧
  unpack State.reset.regs.f = FlagSet.empty ∧ State.reset.regs.f &&& 0x0F = 0 ∧
  (fetch8 State.reset).reads = [0x0000]

/-- Resetting a core from any state clears the ten registers and leaves the memory bytes. Rests on
70_reset_and_hazards.md section 1 (R220; decision D11).
That a hardware reset has the effect of construction is the spec's own choice D11; the recorded count is the
model's own field (log entry 2), none after reset. -/
def Obligations.ResettingTheCoreKeepsTheMemory : Prop :=
  ∀ s : State, s.resetCore.regs = State.reset.regs ∧ SameBytes s s.resetCore ∧ s.resetCore.lastCycles = none

/-- The host may preset any register file with F[3:0] = 0, and no other. Rests on 70_reset_and_hazards.md section 1
(R222; decision D12, U11).
The mechanism is the spec's own choice D12 (log entry 3); the recorded count is the model's own field (log entry
2). -/
def Obligations.LaunchAcceptsExactlyTheRegisterFilesWithAZeroLowNibble : Prop :=
  ∀ (r : RegFile) (m : Memory),
    (r.f.toNat % 16 = 0 → launch r m = .ok { regs := r, mem := m, lastCycles := none }) ∧
    (r.f.toNat % 16 ≠ 0 → launch r m = .error .launchFlagBits)

/-- fetch8 reads the byte at PC and then advances PC; a failed read leaves PC. Rests on 41_decode_execute.md section
1 (R86), 10_state.md section 4 (R20; decision D6).
The wrap of PC at 0xFFFF is the spec's own choice D6 (log entry 9); the record of reads is the model's own (log
entry 16). -/
def Obligations.FetchReadsThenAdvances : Prop :=
  (∀ (s : State) (b : Byte), s.mem.byteAt s.regs.pc = some b →
    fetch8 s = .done b (withPc (BitVec.ofNat 16 ((s.regs.pc.toNat + 1) % 65536)) s) [s.regs.pc]) ∧
  (∀ s : State, s.mem.byteAt s.regs.pc = none →
    fetch8 s = .raised (.failed (.outOfRange s.regs.pc)) s [s.regs.pc])

/-- Opcode bytes of every family, written out bit by bit, decode to their instructions. Rests on 30_encoding.md
sections 3 and 4 (R49 to R52, R55; decision D3).
The source gives 0xC6, 0x29, 0xE8, 0x86 and 0xFF; the others are the spec's own choice D3 (log entry 7). -/
def Obligations.WrittenOutBytesDecodeToTheirInstructions : Prop :=
  decode 0b10000000 = .ok .addAB ∧ decode 0b11000110 = .ok .addAN ∧ decode 0b10000110 = .ok .addAMemHl ∧
  decode 0b00101001 = .ok .addHlHl ∧ decode 0b00111001 = .ok .addHlSp ∧ decode 0b11101000 = .ok .addSpE ∧
  decode 0b10001011 = .ok .adcAE ∧ decode 0b10010101 = .ok .subL ∧ decode 0b10011111 = .ok .sbcAA ∧
  decode 0b10111100 = .ok .cpH ∧ decode 0b11111110 = .ok .cpN ∧
  decode 0b11111111 = .error (.invalidOpcode 0xFF) ∧ decode 0b00000000 = .error (.invalidOpcode 0x00)

/-- Exactly the 206 listed bytes are InvalidOpcode, with the byte echoed. Rests on 30_encoding.md section 5 (R57;
decision D3), 60_exceptions.md section 2 (R196).
Which bytes are assigned rests on the spec's own choice D3 (log entry 7). -/
def Obligations.UnassignedBytesAreInvalidOpcodes : Prop :=
  (∀ b : Byte, decode b = .error (.invalidOpcode b) ↔ unassigned b = true) ∧
  ((List.range 256).filter fun n => unassigned (BitVec.ofNat 8 n)).length = 206 ∧
  (∀ (s : State) (b : Byte), s.mem.byteAt s.regs.pc = some b → unassigned b = true →
    step s = .fault (.invalidOpcode b))

/-- The bit-field view of the opcode byte is the same decoder as the table. Rests on 30_encoding.md section 3 (R49
to R52, derived there from R55).
The field view is the spec's own derivation from R55; the bytes of 39 rows are the spec's own choice D3 (log
entry 7). -/
def Obligations.BitFieldsAgreeWithTheTable : Prop :=
  ∀ b : Byte, decodeFields b =
    match decode b with
    | .ok i => some (i.family, i.operand)
    | .error _ => none

/-- Whatever the registration order of the seven families, the decoder is the same. Rests on 30_encoding.md section
4 (R56, derived there from R55), 41_decode_execute.md section 2 (R88; decision D10).
The order itself is the spec's own choice D10 (log entry 13). -/
def Obligations.RegistrationOrderCannotBeObserved : Prop :=
  (∀ (f g : Family) (b : Byte), f ≠ g → claim b f = none ∨ claim b g = none) ∧
  (∀ (order : List Family) (b : Byte), order.Perm familyOrder → decodeIn order b = decode b)

/-- Decoding the bytes of a well-formed instruction gives it back, with its immediate. Rests on 30_encoding.md
sections 1 and 4 (R45, R54, R55). -/
def Obligations.DecodeReadsBackWhatEncodeWrote : Prop :=
  ∀ (f : FullInstr) (rest : List Byte), f.wellFormed = true →
    decodeBytes (encode f ++ rest) = .ok (f, rest) ∧ (encode f).length = f.instr.length

/-- Every byte list that decodes is the bytes of its instruction followed by the rest. Rests on 30_encoding.md
sections 1 and 4 (R45, R54, R55). -/
def Obligations.EncodeWritesBackWhatDecodeRead : Prop :=
  ∀ (bytes rest : List Byte) (f : FullInstr), decodeBytes bytes = .ok (f, rest) →
    f.wellFormed = true ∧ encode f ++ rest = bytes

/-- Every byte that decodes gives a value its family assigns, with the static count of its operand kind. Rests on
30_encoding.md section 4 (R55, R59), 41_decode_execute.md section 2 (R89, R90).
The count 8 of ADD HL,BC, ADD HL,DE and ADD HL,SP, and the bytes of 39 rows, are the spec's own choice D3 (log
entry 7). -/
def Obligations.DecodedValuesAreWellFormed : Prop :=
  ∀ (b : Byte) (i : Instr), decode b = .ok i →
    opcode i = b ∧ i.value.wellFormed = true ∧ (i.value.cycles = 4 ∨ i.value.cycles = 8 ∨ i.value.cycles = 16)

/-- A tick runs the instruction its opcode byte decodes to, with PC past that byte. Rests on 41_decode_execute.md
section 1 (R85, R86).
The wrap of PC at 0xFFFF is the spec's own choice D6 (log entry 9). -/
def Obligations.StepRunsTheDecodedInstruction : Prop :=
  ∀ (s : State) (op : Byte) (i : Instr), s.mem.byteAt s.regs.pc = some op → decode op = .ok i →
    step s = exec i (withPc (s.regs.pc + 1) s)

/-- The step by one meaning per instruction is the tick by instruction values and family handlers. Rests on
41_decode_execute.md sections 1 to 3 (R85, R87, R89, R91, R93). -/
def Obligations.StepIsTheTickOfTheSpec : Prop :=
  ∀ s : State, step s = outcomeOfTick (tick s)

/-- execute refuses exactly the operand kinds that the matrix refuses, before any read. Rests on
41_decode_execute.md sections 3 and 4 (R92, R97, R99; decision D18).
The matrix is filled in by the spec's own choice D18 (log entry 14). The record of reads is the model's own (log
entry 16). -/
def Obligations.OperandKindsAreAcceptedAsTheMatrixSays : Prop :=
  ∀ (v : InstrValue) (s : State),
    (accepts v.family v.operand = false →
      (execute v s).answer = .error (.invalidOperand v.operand v.family) ∧ (execute v s).reads = []) ∧
    (accepts v.family v.operand = true →
      (execute v s).answer = .ok v.cycles ∨
      (s.mem.byteAt s.regs.pc = none ∧ (execute v s).answer = .error (.failed (.outOfRange s.regs.pc))))

/-- A tick fails exactly in the four cases of the error order, with the error of the first that applies. Rests on
60_exceptions.md section 3 (R200, derived there from R85, R92, R100).
The order is the spec's own derivation. The wrap of PC at 0xFFFF is the spec's own choice D6 (log entry 9). -/
def Obligations.ErrorsComeInTheirOrder : Prop :=
  ∀ (s : State) (e : Fault), step s = .fault e ↔
    (s.mem.byteAt s.regs.pc = none ∧ e = .failed (.outOfRange s.regs.pc)) ∨
    (∃ op, s.mem.byteAt s.regs.pc = some op ∧ decode op = .error (.invalidOpcode op) ∧ e = .invalidOpcode op) ∨
    (∃ op i, s.mem.byteAt s.regs.pc = some op ∧ decode op = .ok i ∧ i.operand = .memory .hl ∧
      e = .invalidOperand (.memory .hl) i.family) ∨
    (∃ op i, s.mem.byteAt s.regs.pc = some op ∧ decode op = .ok i ∧ i.operand.hasTrailing = true ∧
      s.mem.byteAt (s.regs.pc + 1) = none ∧ e = .failed (.outOfRange (s.regs.pc + 1)))

/-- A tick completes exactly when its bytes are readable, assigned and not a memory form. Rests on 00_scope.md
section 6 (R7), 60_exceptions.md section 3 (R200).
The wrap of PC at 0xFFFF is the spec's own choice D6 (log entry 9). -/
def Obligations.TickCompletesExactlyWhenNothingFails : Prop :=
  (∀ s : State, (∃ t, step s = .next t) ↔
    ∃ op i, s.mem.byteAt s.regs.pc = some op ∧ decode op = .ok i ∧ i.operand ≠ .memory .hl ∧
      (i.operand.hasTrailing = true → ∃ n, s.mem.byteAt (s.regs.pc + 1) = some n)) ∧
  (∀ s : State, (∃ t, step s = .next t) ∨ (∃ e, step s = .fault e))

/-- The five (HL) opcodes decode and always fail with InvalidOperand(Memory(HL), family). Rests on
41_decode_execute.md section 4 (R97; decision D7), 42_add8.md (R112), 45_adc.md (R142), 46_sub.md (R157),
47_sbc.md (R172), 48_cp.md (R187).
That the hardware is specified with the error is the spec's own choice D7 (log entry 5); the bytes 0x8E, 0x96,
0x9E and 0xBE are its own choice D3 (log entry 7). The record of reads is the model's own (log entry 16). -/
def Obligations.MemoryFormsAlwaysFault : Prop :=
  ∀ p ∈ memoryForms,
    decode p.1 = .ok p.2.1 ∧
    (∀ s : State, exec p.2.1 s = .fault (.invalidOperand (.memory .hl) p.2.2)) ∧
    (∀ s : State, s.mem.byteAt s.regs.pc = some p.1 → step s = .fault (.invalidOperand (.memory .hl) p.2.2)) ∧
    (∀ s : State, (execute p.2.1.value s).reads = [])

/-- A completed tick leaves PC = (PC + length) mod 65536. Rests on 41_decode_execute.md sections 5 and 6 (R101,
R102), 10_state.md section 4 (R19, R20; decision D6).
The rule is the spec's own derivation; the wrap is its choice D6 (log entry 9). -/
def Obligations.PcAdvancesByTheLength : Prop :=
  ∀ s t : State, step s = .next t →
    ∃ op i, s.mem.byteAt s.regs.pc = some op ∧ decode op = .ok i ∧
      t.regs.pc.toNat = (s.regs.pc.toNat + i.length) % 65536

/-- A completed tick returns 4, 8 or 16 by its family and operand kind, whatever the data. Rests on
70_reset_and_hazards.md section 4 (R225), 30_encoding.md section 4 (R59; decision D3).
Counts of three ADD HL forms are the spec's own choice D3; the recording field is the model's own (log entry 2). -/
def Obligations.CompletedTickReturnsItsStaticCount : Prop :=
  ∀ s t : State, step s = .next t →
    ∃ op i, s.mem.byteAt s.regs.pc = some op ∧ decode op = .ok i ∧
      ((i.family = .addsp ∧ i.operand = .immSigned8 ∧ t.lastCycles = some 16) ∨
       (i.family = .add16 ∧ (∃ p, i.operand = .register16 p) ∧ t.lastCycles = some 8) ∨
       (i.operand = .imm8 ∧ t.lastCycles = some 8) ∨
       ((∃ w, i.operand = .register8 w) ∧ t.lastCycles = some 4))

/-- The reads of a tick are the opcode byte and, for a two-byte opcode, the byte after it. Rests on 20_memory.md
section 2 (R43, derived there), 20_memory.md section 2 (R36).
The rule is the spec's own derivation; the record of reads is the model's own (log entry 16). The wrap of PC at
0xFFFF is the spec's own choice D6 (log entry 9). -/
def Obligations.ATickReadsItsOwnBytesOnly : Prop :=
  ∀ s : State,
    ((∃ op i, s.mem.byteAt s.regs.pc = some op ∧ decode op = .ok i ∧ i.operand.hasTrailing = true) →
      (tick s).reads = [s.regs.pc, s.regs.pc + 1]) ∧
    ((¬ ∃ op i, s.mem.byteAt s.regs.pc = some op ∧ decode op = .ok i ∧ i.operand.hasTrailing = true) →
      (tick s).reads = [s.regs.pc])

/-- No completed tick changes a byte of memory or which addresses answer. Formalises R33. -/
def Obligations.StepNeverWritesMemory : Prop :=
  ∀ s t : State, step s = .next t → t.mem = s.mem ∧ SameBytes s t

/-- Two memories that agree on the bytes of the instruction at PC give the same tick. Rests on 20_memory.md section
1 (R32), 20_memory.md section 2 (R36, R43).
The wrap of PC at 0xFFFF is the spec's own choice D6 (log entry 9). -/
def Obligations.OutcomeDependsOnTheInstructionBytesOnly : Prop :=
  ∀ (s : State) (m : Memory), m.byteAt s.regs.pc = s.mem.byteAt s.regs.pc →
    ((∃ op i, s.mem.byteAt s.regs.pc = some op ∧ decode op = .ok i ∧ i.operand.hasTrailing = true) →
      m.byteAt (s.regs.pc + 1) = s.mem.byteAt (s.regs.pc + 1)) →
    step { s with mem := m } = withMemory m (step s)

/-- Of the old flags only Carry is read, and by ADC and SBC only. Rests on 10_state.md section 3 (R18).
The flag positions in F are the spec's own choices D1 and D2 (log entry 6); that ADD SP,e writes F at all is the
spec's own choice D5 (log entry 8). -/
def Obligations.OldFlagsAreAnInputThroughCarryOnly : Prop :=
  (∀ (i : Instr) (s : State) (f : Byte), i.family ≠ .adc → i.family ≠ .sbc →
    exec i { s with regs := { s.regs with f := f } } = exec i s) ∧
  (∀ (i : Instr) (s : State) (f : Byte), (unpack f).c = (unpack s.regs.f).c →
    exec i { s with regs := { s.regs with f := f } } = exec i s)

/-- The recorded count of the last tick is no input of the next. Rests on 00_scope.md section 6 (R8).
The field is the model's own (log entry 2); the spec says no rule reads an accumulated cycle count. -/
def Obligations.ReturnedCountIsNeverRead : Prop :=
  ∀ (s : State) (c : Option Byte), step { s with lastCycles := c } = step s

/-- The reset state meets the invariant. Rests on 10_state.md sections 3 and 6 (R16, R24).
The canonical form is that of the model's own data for the memory (log entry 1). -/
def Obligations.InvariantHoldsAtReset : Prop :=
  State.reset.Inv

/-- Every completed tick keeps F[3:0] zero and the memory in canonical form. Rests on 10_state.md section 3 (R16;
decision D2).
Bits 3 to 0 are the spec's own choice D2 (log entry 6). That ADD SP,e writes F at all is the spec's own choice
D5 (log entry 8); the canonical form is that of the model's own data for the memory (log entry 1); the second
clause adds to the first only states with a bit of F[3:0] set, which no launch gives (log entry 3). -/
def Obligations.StepKeepsTheInvariant : Prop :=
  (∀ s t : State, s.Inv → step s = .next t → t.Inv) ∧
  (∀ s t : State, step s = .next t → t.regs.f.toNat % 16 = 0)

/-- A tick never writes B, C, D or E, and writes A, HL and SP in their own families only. Rests on 10_state.md
section 1 (R10). -/
def Obligations.OnlyAccumulatorFlagsHlSpAndPcEverChange : Prop :=
  ∀ s t : State, step s = .next t →
    t.regs.b = s.regs.b ∧ t.regs.c = s.regs.c ∧ t.regs.d = s.regs.d ∧ t.regs.e = s.regs.e ∧
    ∃ op i, s.mem.byteAt s.regs.pc = some op ∧ decode op = .ok i ∧
      (i.family ∈ [Family.add16, .addsp, .cp] → t.regs.a = s.regs.a) ∧
      (i.family ≠ .add16 → t.regs.h = s.regs.h ∧ t.regs.l = s.regs.l) ∧
      (i.family ≠ .addsp → t.regs.sp = s.regs.sp)

/-- Over a whole run B, C, D, E and the memory keep their launch values. Rests on 30_encoding.md section 6 (R61,
derived there from R55), 20_memory.md section 1 (R33), 70_reset_and_hazards.md section 2 (R226; decision D22).
That B, C, D and E keep their launch values is the spec's own derivation from R55; that the memory does is R33.
When a run ends is the spec's own choice D22 (log entry 18). -/
def Obligations.RunsKeepTheLaunchValuesOfBCDE : Prop :=
  ∀ (n : Nat) (s : State),
    (runTicks n s).last.regs.b = s.regs.b ∧ (runTicks n s).last.regs.c = s.regs.c ∧
    (runTicks n s).last.regs.d = s.regs.d ∧ (runTicks n s).last.regs.e = s.regs.e ∧
    (runTicks n s).last.mem = s.mem

/-- A run of k completed ticks moves PC forward by k to 2k bytes and returns k counts of 4, 8 or 16. Rests on
41_decode_execute.md section 6 (R102), 70_reset_and_hazards.md sections 2 and 4 (R226, R225).
The wrap of PC at 0xFFFF is the spec's own choice D6 (log entry 9); when a run ends is the spec's own choice D22
(log entry 18). -/
def Obligations.RunsAreStraightLine : Prop :=
  ∀ (n : Nat) (s : State),
    (runTicks n s).counts.length ≤ n ∧
    (SafeFor n s → (runTicks n s).counts.length = n) ∧
    (∀ c ∈ (runTicks n s).counts, c = 4 ∨ c = 8 ∨ c = 16) ∧
    ∃ d, (runTicks n s).counts.length ≤ d ∧ d ≤ 2 * (runTicks n s).counts.length ∧
      (runTicks n s).last.regs.pc.toNat = (s.regs.pc.toNat + d) % 65536

/-- A run ends at the first tick whose bytes are unreadable, unassigned or a memory form, with that fault. Rests on
70_reset_and_hazards.md section 2 (R226; decision D22), 60_exceptions.md section 3 (R200).
When a run ends is the spec's own choice D22 (log entry 18); the bytes of 39 rows are its own choice D3 (log
entry 7), and the wrap of PC is its own choice D6 (log entry 9). -/
def Obligations.RunsEndAtTheFirstFailingTick : Prop :=
  ∀ (m n : Nat) (s : State), SafeFor m s →
    let u := (runTicks m s).last
    (u.mem.byteAt u.regs.pc = none →
      runTicks (m + 1 + n) s = endingWith (.failed (.outOfRange u.regs.pc)) (runTicks m s)) ∧
    (∀ op, u.mem.byteAt u.regs.pc = some op → unassigned op = true →
      runTicks (m + 1 + n) s = endingWith (.invalidOpcode op) (runTicks m s)) ∧
    (∀ p ∈ memoryForms, u.mem.byteAt u.regs.pc = some p.1 →
      runTicks (m + 1 + n) s = endingWith (.invalidOperand (.memory .hl) p.2.2) (runTicks m s)) ∧
    (∀ op i, u.mem.byteAt u.regs.pc = some op → decode op = .ok i → i.operand.hasTrailing = true →
      u.mem.byteAt (u.regs.pc + 1) = none →
      runTicks (m + 1 + n) s = endingWith (.failed (.outOfRange (u.regs.pc + 1))) (runTicks m s))

/-- Where some address cannot be read, the run until the first fault ends at the latest there. Rests on 00_scope.md
section 4 (R5), 70_reset_and_hazards.md section 2 (R226; decision D22), 41_decode_execute.md section 6 (R102).
When a run ends is the spec's own choice D22 (log entry 18); the wrap of PC is its own choice D6 (log entry 9). -/
def Obligations.ARunUntilTheFirstFaultEndsBeforeAnUnreadableAddress : Prop :=
  ∀ (s : State) (a : Addr), s.mem.byteAt a = none →
    ∃ r, IsRun .untilFirstFault s r ∧ (∀ r', IsRun .untilFirstFault s r' → r' = r) ∧
      (∃ e, r.ending = .fault e ∧ step r.last = .fault e) ∧ r.counts.length ≤ (a - s.regs.pc).toNat

/-- A run of 65536 completed ticks never faults, and one over bytes that all execute never does. Rests on
00_scope.md section 4 (R5), 70_reset_and_hazards.md section 2 (R226; decision D22), 20_memory.md sections 1 and
2 (R33, R43).
When a run ends is the spec's own choice D22 (log entry 18); the wrap of PC is its own choice D6 (log entry 9). -/
def Obligations.ARunThatOutlastsTheAddressSpaceNeverFaults : Prop :=
  (∀ s : State, SafeFor 65536 s ↔ NeverFaults s) ∧
  (∀ s : State, (∀ a, ∃ op i, s.mem.byteAt a = some op ∧ decode op = .ok i ∧ i.operand ≠ .memory .hl) →
    NeverFaults s) ∧
  (∀ s : State, (∃ r, IsRun .untilFirstFault s r) ↔ ¬ NeverFaults s)

/-- A byte buffer at base 0 answers exactly at the addresses below its length. Rests on 20_memory.md section 1 (R30,
R31; decision D9).
What in range means for a buffer is the spec's own derivation (D9, log entry 1). -/
def Obligations.BufferAnswersBelowItsLength : Prop :=
  ∀ bytes : List Byte, bytes.length ≤ 65536 →
    (∀ a : Addr, (Memory.ofBuffer bytes).byteAt a = bytes[a.toNat]?) ∧
    (∀ (s : State) (a : Addr), s.mem = Memory.ofBuffer bytes → bytes.length ≤ a.toNat →
      memRead a s = .raised (.failed (.outOfRange a)) s [a])

/-- Imm8 is the unsigned byte after the opcode; ImmSigned8 is that byte sign-extended to 16 bits. Rests on
30_encoding.md section 2 (R53), 41_decode_execute.md section 4 (R95, R98).
The wrap of PC at 0xFFFF is the spec's own choice D6 (log entry 9); the record of reads is the model's own (log
entry 16). -/
def Obligations.ImmediatesBecomeValues : Prop :=
  (∀ (s : State) (n : Byte) (fam : Family), s.mem.byteAt s.regs.pc = some n →
    resolve8 .imm8 fam s = .done n (withPc (s.regs.pc + 1) s) [s.regs.pc] ∧
    resolveS8 .immSigned8 fam s = .done (sext16 n) (withPc (s.regs.pc + 1) s) [s.regs.pc]) ∧
  (∀ e : Byte,
    (sext16 e).toNat = (if e.toNat < 0x80 then e.toNat else 0xFF00 + e.toNat) ∧ (sext16 e).toInt = e.toInt) ∧
  sext16 0x05 = 0x0005 ∧ sext16 0xFF = 0xFFFF ∧ sext16 0x80 = 0xFF80 ∧ sext16 0x7F = 0x007F

/-- The 8-bit add handler computes its result and flags and accepts registers and Imm8 only. Rests on 42_add8.md
section 1 (R105), 41_decode_execute.md section 3 (R92).
The wrap of PC at 0xFFFF is the spec's own choice D6 (log entry 9); the flag positions in F are the spec's own
choices D1 and D2 (log entry 6); the record of reads is the model's own (log entry 16). -/
def Obligations.AddHandlerFollowsItsRule : Prop :=
  Handler8 .add8 addEffect

/-- The add-with-carry handler computes its result and flags and accepts registers and Imm8 only. Rests on 45_adc.md
section 1 (R135), 41_decode_execute.md section 3 (R92).
The wrap of PC at 0xFFFF is the spec's own choice D6 (log entry 9); the flag positions in F are the spec's own
choices D1 and D2 (log entry 6); the record of reads is the model's own (log entry 16). -/
def Obligations.AdcHandlerFollowsItsRule : Prop :=
  Handler8 .adc adcEffect ∧
  (∀ (s : State) (o : Operand), (unpack s.regs.f).c = false →
    (∀ v, adcEffect v s = addEffect v s) ∧ (accepts .adc o = true → handle .adc o s = handle .add8 o s))

/-- The subtract handler computes its result and flags and accepts registers and Imm8 only. Rests on 46_sub.md
section 1 (R150), 41_decode_execute.md section 3 (R92).
The wrap of PC at 0xFFFF is the spec's own choice D6 (log entry 9); the flag positions in F are the spec's own
choices D1 and D2 (log entry 6); the record of reads is the model's own (log entry 16). -/
def Obligations.SubHandlerFollowsItsRule : Prop :=
  Handler8 .sub subEffect

/-- The subtract-with-carry handler computes its result and flags and accepts registers and Imm8 only. Rests on
47_sbc.md section 1 (R165), 41_decode_execute.md section 3 (R92).
The wrap of PC at 0xFFFF is the spec's own choice D6 (log entry 9); the flag positions in F are the spec's own
choices D1 and D2 (log entry 6); the record of reads is the model's own (log entry 16). -/
def Obligations.SbcHandlerFollowsItsRule : Prop :=
  Handler8 .sbc sbcEffect ∧
  (∀ (s : State) (o : Operand), (unpack s.regs.f).c = false →
    (∀ v, sbcEffect v s = subEffect v s) ∧ (accepts .sbc o = true → handle .sbc o s = handle .sub o s))

/-- The compare handler computes its result and flags and accepts registers and Imm8 only. Rests on 48_cp.md section
1 (R180), 41_decode_execute.md section 3 (R92).
The wrap of PC at 0xFFFF is the spec's own choice D6 (log entry 9); the flag positions in F are the spec's own
choices D1 and D2 (log entry 6); the record of reads is the model's own (log entry 16). -/
def Obligations.CpHandlerFollowsItsRule : Prop :=
  Handler8 .cp cpEffect

/-- The 16-bit add handler adds to HL with Z recomputed and H from the low byte. Rests on 43_add16.md section 1
(R120), 30_encoding.md section 4 (R55, R59; decisions D3, D4).
The count 8 of three of the forms, and that ADD HL,SP exists, are the spec's own choices D3 and D4 (log entry
7); the flag positions in F are the spec's own choices D1 and D2 (log entry 6); the record of reads is the
model's own (log entry 16). -/
def Obligations.AddHlHandlerFollowsItsRule : Prop :=
  (∀ (s : State) (p : Reg16),
    handle .add16 (.register16 p) s = .done () (addHlEffect (s.regs.read16 p).toNat s) []) ∧
  (∀ (s : State) (o : Operand), (∀ p, o ≠ .register16 p) →
    (handle .add16 o s).answer = .error (.invalidOperand o .add16) ∧ (handle .add16 o s).reads = []) ∧
  (∀ i ∈ addHlForms, i.value.family = .add16 ∧ i.value.cycles = 8)

/-- The stack-pointer add handler adds the signed immediate to SP and writes the flags of the pattern sum. Rests on
44_addsp.md section 1 (R130; decision D5).
That F is written is the spec's own choice D5 (log entry 8). The wrap of PC at 0xFFFF is the spec's own choice
D6 (log entry 9); the flag positions in F are the spec's own choices D1 and D2 (log entry 6); the record of
reads is the model's own (log entry 16). -/
def Obligations.AddSpHandlerFollowsItsRule : Prop :=
  (∀ (s : State) (e : Byte), s.mem.byteAt s.regs.pc = some e →
    handle .addsp .immSigned8 s = .done () (withPc (s.regs.pc + 1) (addSpEffect e s)) [s.regs.pc]) ∧
  (∀ s : State, s.mem.byteAt s.regs.pc = none →
    (handle .addsp .immSigned8 s).answer = .error (.failed (.outOfRange s.regs.pc))) ∧
  (∀ (s : State) (o : Operand), o ≠ .immSigned8 →
    (handle .addsp o s).answer = .error (.invalidOperand o .addsp) ∧ (handle .addsp o s).reads = [])

/-- Every executing instruction of the 8-bit add family completes with its result, flags, PC and count. Rests on
42_add8.md section 2 (R106 to R114), 30_encoding.md section 4 (R55, R59).
The wrap of PC at 0xFFFF is the spec's own choice D6 (log entry 9); the flag positions in F are the spec's own
choices D1 and D2 (log entry 6); the field that records the count is the model's own (log entry 2). -/
def Obligations.AddInstructionsComplete : Prop :=
  RegisterForm 0x80 .addAB 4 (fun s => addEffect s.regs.b s) ∧
  RegisterForm 0x81 .addAC 4 (fun s => addEffect s.regs.c s) ∧
  RegisterForm 0x82 .addAD 4 (fun s => addEffect s.regs.d s) ∧
  RegisterForm 0x83 .addAE 4 (fun s => addEffect s.regs.e s) ∧
  RegisterForm 0x84 .addAH 4 (fun s => addEffect s.regs.h s) ∧
  RegisterForm 0x85 .addAL 4 (fun s => addEffect s.regs.l s) ∧
  RegisterForm 0x87 .addAA 4 (fun s => addEffect s.regs.a s) ∧
  ImmediateForm 0xC6 .addAN 8 addEffect

/-- Every executing instruction of the add-with-carry family completes with its result, flags, PC and count. Rests
on 45_adc.md section 2 (R136 to R144), 30_encoding.md section 4 (R55, R59; decision D3).
The opcode bytes are the spec's own choice D3 (log entry 7). The wrap of PC at 0xFFFF is the spec's own choice
D6 (log entry 9); the flag positions in F are the spec's own choices D1 and D2 (log entry 6); the field that
records the count is the model's own (log entry 2). -/
def Obligations.AdcInstructionsComplete : Prop :=
  RegisterForm 0x88 .adcAB 4 (fun s => adcEffect s.regs.b s) ∧
  RegisterForm 0x89 .adcAC 4 (fun s => adcEffect s.regs.c s) ∧
  RegisterForm 0x8A .adcAD 4 (fun s => adcEffect s.regs.d s) ∧
  RegisterForm 0x8B .adcAE 4 (fun s => adcEffect s.regs.e s) ∧
  RegisterForm 0x8C .adcAH 4 (fun s => adcEffect s.regs.h s) ∧
  RegisterForm 0x8D .adcAL 4 (fun s => adcEffect s.regs.l s) ∧
  RegisterForm 0x8F .adcAA 4 (fun s => adcEffect s.regs.a s) ∧
  ImmediateForm 0xCE .adcAN 8 adcEffect

/-- Every executing instruction of the subtract family completes with its result, flags, PC and count. Rests on
46_sub.md section 2 (R151 to R159), 30_encoding.md section 4 (R55, R59; decision D3).
The opcode bytes are the spec's own choice D3 (log entry 7). The wrap of PC at 0xFFFF is the spec's own choice
D6 (log entry 9); the flag positions in F are the spec's own choices D1 and D2 (log entry 6); the field that
records the count is the model's own (log entry 2). -/
def Obligations.SubInstructionsComplete : Prop :=
  RegisterForm 0x90 .subB 4 (fun s => subEffect s.regs.b s) ∧
  RegisterForm 0x91 .subC 4 (fun s => subEffect s.regs.c s) ∧
  RegisterForm 0x92 .subD 4 (fun s => subEffect s.regs.d s) ∧
  RegisterForm 0x93 .subE 4 (fun s => subEffect s.regs.e s) ∧
  RegisterForm 0x94 .subH 4 (fun s => subEffect s.regs.h s) ∧
  RegisterForm 0x95 .subL 4 (fun s => subEffect s.regs.l s) ∧
  RegisterForm 0x97 .subA 4 (fun s => subEffect s.regs.a s) ∧
  ImmediateForm 0xD6 .subN 8 subEffect

/-- Every executing instruction of the subtract-with-carry family completes with its result, flags, PC and count.
Rests on 47_sbc.md section 2 (R166 to R174), 30_encoding.md section 4 (R55, R59; decision D3).
The opcode bytes are the spec's own choice D3 (log entry 7). The wrap of PC at 0xFFFF is the spec's own choice
D6 (log entry 9); the flag positions in F are the spec's own choices D1 and D2 (log entry 6); the field that
records the count is the model's own (log entry 2). -/
def Obligations.SbcInstructionsComplete : Prop :=
  RegisterForm 0x98 .sbcAB 4 (fun s => sbcEffect s.regs.b s) ∧
  RegisterForm 0x99 .sbcAC 4 (fun s => sbcEffect s.regs.c s) ∧
  RegisterForm 0x9A .sbcAD 4 (fun s => sbcEffect s.regs.d s) ∧
  RegisterForm 0x9B .sbcAE 4 (fun s => sbcEffect s.regs.e s) ∧
  RegisterForm 0x9C .sbcAH 4 (fun s => sbcEffect s.regs.h s) ∧
  RegisterForm 0x9D .sbcAL 4 (fun s => sbcEffect s.regs.l s) ∧
  RegisterForm 0x9F .sbcAA 4 (fun s => sbcEffect s.regs.a s) ∧
  ImmediateForm 0xDE .sbcAN 8 sbcEffect

/-- Every executing instruction of the compare family completes with its result, flags, PC and count. Rests on
48_cp.md section 2 (R181 to R189), 30_encoding.md section 4 (R55, R59; decision D3).
The opcode bytes are the spec's own choice D3 (log entry 7). The wrap of PC at 0xFFFF is the spec's own choice
D6 (log entry 9); the flag positions in F are the spec's own choices D1 and D2 (log entry 6); the field that
records the count is the model's own (log entry 2). -/
def Obligations.CpInstructionsComplete : Prop :=
  RegisterForm 0xB8 .cpB 4 (fun s => cpEffect s.regs.b s) ∧
  RegisterForm 0xB9 .cpC 4 (fun s => cpEffect s.regs.c s) ∧
  RegisterForm 0xBA .cpD 4 (fun s => cpEffect s.regs.d s) ∧
  RegisterForm 0xBB .cpE 4 (fun s => cpEffect s.regs.e s) ∧
  RegisterForm 0xBC .cpH 4 (fun s => cpEffect s.regs.h s) ∧
  RegisterForm 0xBD .cpL 4 (fun s => cpEffect s.regs.l s) ∧
  RegisterForm 0xBF .cpA 4 (fun s => cpEffect s.regs.a s) ∧
  ImmediateForm 0xFE .cpN 8 cpEffect

/-- ADD HL,BC / DE / HL / SP complete with the 16-bit sum, its flags, PC and count. Rests on 43_add16.md section 2
(R121 to R124), 30_encoding.md section 4 (R55, R59; decisions D3, D4).
The source gives 0x29; the other bytes and counts, and that the SP form exists, are the spec's own choices D3
and D4 (log entry 7). The wrap of PC at 0xFFFF is the spec's own choice D6 (log entry 9); the flag positions in
F are the spec's own choices D1 and D2 (log entry 6); the field that records the count is the model's own (log
entry 2). -/
def Obligations.AddHlInstructionsComplete : Prop :=
  RegisterForm 0x09 .addHlBc 8 (fun s => addHlEffect (pairValue s.regs.b s.regs.c) s) ∧
  RegisterForm 0x19 .addHlDe 8 (fun s => addHlEffect (pairValue s.regs.d s.regs.e) s) ∧
  RegisterForm 0x29 .addHlHl 8 (fun s => addHlEffect (pairValue s.regs.h s.regs.l) s) ∧
  RegisterForm 0x39 .addHlSp 8 (fun s => addHlEffect s.regs.sp.toNat s)

/-- ADD SP,e completes with SP plus the signed byte, the flags of the pattern sum, PC and count 16. Rests on
44_addsp.md section 2 (R131; decision D5).
That F is written is the spec's own choice D5 (log entry 8). The wrap of PC at 0xFFFF is the spec's own choice
D6 (log entry 9); the flag positions in F are the spec's own choices D1 and D2 (log entry 6); the field that
records the count is the model's own (log entry 2). -/
def Obligations.AddSpInstructionCompletes : Prop :=
  ImmediateForm 0xE8 .addSpE 16 addSpEffect

/-- The A,A and HL,HL forms use the old value twice. Rests on 42_add8.md (R113), 43_add16.md (R123), 45_adc.md
(R143), 46_sub.md (R158), 47_sbc.md (R173), 48_cp.md (R188).
The flag positions in F are the spec's own choices D1 and D2 (log entry 6). -/
def Obligations.SameRegisterAsSourceAndDestination : Prop :=
  ∀ s : State,
    (∃ t, exec .addAA s = .next t ∧ t.regs.a.toNat = (2 * s.regs.a.toNat) % 256 ∧
      unpack t.regs.f = { z := decide (s.regs.a = 0x00 ∨ s.regs.a = 0x80), n := false, h := s.regs.a.getLsbD 3
                          c := s.regs.a.getLsbD 7 }) ∧
    (∃ t, exec .adcAA s = .next t ∧ t.regs.a.toNat = (2 * s.regs.a.toNat + (unpack s.regs.f).c.toNat) % 256 ∧
      unpack t.regs.f = { z := decide (s.regs.a = 0x00 ∨ s.regs.a = 0x80) && !(unpack s.regs.f).c, n := false
                          h := s.regs.a.getLsbD 3, c := s.regs.a.getLsbD 7 }) ∧
    (∃ t, exec .subA s = .next t ∧ t.regs.a = 0x00 ∧
      unpack t.regs.f = { z := true, n := true, h := false, c := false }) ∧
    (∃ t, exec .sbcAA s = .next t ∧ t.regs.a = (if (unpack s.regs.f).c then 0xFF else 0x00) ∧
      unpack t.regs.f = { z := !(unpack s.regs.f).c, n := true, h := (unpack s.regs.f).c, c := (unpack s.regs.f).c }) ∧
    (∃ t, exec .cpA s = .next t ∧ t.regs.a = s.regs.a ∧
      unpack t.regs.f = { z := true, n := true, h := false, c := false }) ∧
    (∃ t, exec .addHlHl s = .next t ∧
      pairValue t.regs.h t.regs.l = (2 * pairValue s.regs.h s.regs.l) % 65536 ∧
      unpack t.regs.f = { z := decide (pairValue s.regs.h s.regs.l = 0x0000 ∨ pairValue s.regs.h s.regs.l = 0x8000)
                          n := false, h := s.regs.l.getLsbD 7, c := s.regs.h.getLsbD 7 })

/-- ADD A, ADC A, SUB and SBC A with a register or immediate change A, F, PC and the count only. Rests on
10_state.md sections 1 and 3 (R10, R16, R18), 20_memory.md section 1 (R33).
That bits 3 to 0 of F are zero is the spec's own choice D2 (log entry 6). -/
def Obligations.AccumulatorFormsChangeOnlyAFPcAndCount : Prop :=
  ∀ i ∈ accumulatorForms, ∀ s t : State, exec i s = .next t →
    t.regs = { s.regs with a := t.regs.a, f := t.regs.f, pc := t.regs.pc } ∧ t.regs.f &&& 0x0F = 0 ∧ SameBytes s t

/-- CP with a register or immediate changes F, PC and the count only. Rests on 10_state.md sections 1 and 3 (R10,
R16, R18), 48_cp.md section 1 (R180), 20_memory.md section 1 (R33).
That bits 3 to 0 of F are zero is the spec's own choice D2 (log entry 6). -/
def Obligations.CompareFormsChangeOnlyFPcAndCount : Prop :=
  ∀ i ∈ compareForms, ∀ s t : State, exec i s = .next t →
    t.regs = { s.regs with f := t.regs.f, pc := t.regs.pc } ∧ t.regs.f &&& 0x0F = 0 ∧ SameBytes s t

/-- ADD HL,BC / DE / HL / SP change H, L, F, PC and the count only. Rests on 10_state.md sections 1 and 3 (R10, R16,
R18), 43_add16.md section 1 (R120), 20_memory.md section 1 (R33).
That bits 3 to 0 of F are zero is the spec's own choice D2 (log entry 6). -/
def Obligations.AddHlFormsChangeOnlyHlFPcAndCount : Prop :=
  ∀ i ∈ addHlForms, ∀ s t : State, exec i s = .next t →
    t.regs = { s.regs with h := t.regs.h, l := t.regs.l, f := t.regs.f, pc := t.regs.pc } ∧ t.regs.f &&& 0x0F = 0 ∧
    SameBytes s t

/-- ADD SP,e changes SP, F, PC and the count only. Rests on 10_state.md sections 1 and 3 (R10, R16, R18),
44_addsp.md section 2 (R131), 20_memory.md section 1 (R33).
That bits 3 to 0 of F are zero is the spec's own choice D2 (log entry 6), and that ADD SP,e writes F at all is
the spec's own choice D5 (log entry 8). -/
def Obligations.AddSpChangesOnlySpFPcAndCount : Prop :=
  ∀ s t : State, exec .addSpE s = .next t →
    t.regs = { s.regs with sp := t.regs.sp, f := t.regs.f, pc := t.regs.pc } ∧ t.regs.f &&& 0x0F = 0 ∧ SameBytes s t
end

