-- ==== Sys2Proof/Laws/Memory.lean ====
section
/-! SUPPORT. The laws of the memory bytes: every operation keeps the canonical form; a read after a write to the same
address gives the byte written, and a write leaves every other address alone. -/

namespace Sys2Proof.Machine

theorem Memory.risingFrom_cons {lo k : Nat} {v : Byte} {m : Memory} :
    Memory.risingFrom lo ((k, v) :: m) = true ↔
      lo ≤ k ∧ k < Config.addressCount ∧ Memory.risingFrom (k + 1) m = true := by
  simp [Memory.risingFrom, and_assoc]

theorem Memory.risingFrom_mono {lo lo' : Nat} {m : Memory} (h : lo' ≤ lo) (hm : Memory.risingFrom lo m = true) :
    Memory.risingFrom lo' m = true := by
  cases m with
  | nil => rfl
  | cons c m =>
    obtain ⟨k, v⟩ := c
    rw [Memory.risingFrom_cons] at hm ⊢
    exact ⟨le_trans h hm.1, hm.2⟩

/-- An address below every listed one does not answer. -/
theorem Memory.lookup_none_of_rising {lo a : Nat} {m : Memory} (hm : Memory.risingFrom lo m = true) (h : a < lo) :
    m.lookup a = none := by
  induction m generalizing lo with
  | nil => rfl
  | cons c m ih =>
    obtain ⟨k, v⟩ := c
    rw [Memory.risingFrom_cons] at hm
    have hne : (a == k) = false := by simp; omega
    rw [List.lookup, hne]
    exact ih hm.2.2 (by omega)

theorem Memory.insertAt_rising {lo k : Nat} {v : Byte} {m : Memory} (hm : Memory.risingFrom lo m = true)
    (hlo : lo ≤ k) (hk : k < Config.addressCount) : Memory.risingFrom lo (Memory.insertAt k v m) = true := by
  induction m generalizing lo with
  | nil => simp [Memory.insertAt, Memory.risingFrom, hlo, hk]
  | cons c m ih =>
    obtain ⟨k', v'⟩ := c
    rw [Memory.risingFrom_cons] at hm
    unfold Memory.insertAt
    split
    · rw [Memory.risingFrom_cons, Memory.risingFrom_cons]
      exact ⟨hlo, hk, by omega, hm.2.1, hm.2.2⟩
    · split
      · subst k'
        rw [Memory.risingFrom_cons]
        exact hm
      · rw [Memory.risingFrom_cons]
        exact ⟨hm.1, hm.2.1, ih hm.2.2 (by omega)⟩

/-- Listing a byte keeps the canonical form. -/
theorem Memory.put_wf {m : Memory} (hm : m.wf = true) (a : Addr) (v : Byte) : (m.put a v).wf = true :=
  Memory.insertAt_rising hm (Nat.zero_le _) a.isLt

/-- Taking an address out of range keeps the canonical form. -/
theorem Memory.remove_wf {m : Memory} (hm : m.wf = true) (a : Addr) : (m.remove a).wf = true := by
  have key : ∀ (m : Memory) (lo : Nat), Memory.risingFrom lo m = true →
      Memory.risingFrom lo (m.filter fun cell => cell.1 != a.toNat) = true := by
    intro m
    induction m with
    | nil => intro lo _; rfl
    | cons c m ih =>
      obtain ⟨k, v⟩ := c
      intro lo h
      rw [Memory.risingFrom_cons] at h
      rw [List.filter]
      split
      · rw [Memory.risingFrom_cons]
        exact ⟨h.1, h.2.1, ih _ h.2.2⟩
      · exact Memory.risingFrom_mono (by omega) (ih _ h.2.2)
  exact key m 0 hm

theorem Memory.bytesFrom_rising (bytes : List Byte) (k : Nat) :
    Memory.risingFrom k (Memory.bytesFrom k bytes) = true := by
  induction bytes generalizing k with
  | nil => rfl
  | cons v vs ih =>
    unfold Memory.bytesFrom
    split
    · rw [Memory.risingFrom_cons]
      exact ⟨le_refl k, by assumption, ih (k + 1)⟩
    · rfl

/-- A buffer is in canonical form. -/
theorem Memory.ofBuffer_wf (bytes : List Byte) : (Memory.ofBuffer bytes).wf = true := Memory.bytesFrom_rising bytes 0

/-- The reset memory is in canonical form. -/
theorem Memory.reset_wf : State.reset.mem.wf = true := rfl

theorem Memory.lookup_insertAt {lo k a : Nat} {v : Byte} {m : Memory} (hm : Memory.risingFrom lo m = true) :
    (Memory.insertAt k v m).lookup a = if a = k then some v else m.lookup a := by
  induction m generalizing lo with
  | nil =>
    rw [Memory.insertAt, List.lookup]
    by_cases h : a = k <;> simp [h]
  | cons c m ih =>
    obtain ⟨k', v'⟩ := c
    rw [Memory.risingFrom_cons] at hm
    unfold Memory.insertAt
    split
    · by_cases h : a = k
      · simp [h]
      · have hb : (a == k) = false := by simpa using h
        simp only [h, List.lookup, hb, ↓reduceIte]
    · split
      · subst k'
        by_cases h : a = k
        · simp [h]
        · have hb : (a == k) = false := by simpa using h
          simp only [h, List.lookup, hb, ↓reduceIte]
      · have hne : k ≠ k' := by assumption
        by_cases h : a = k'
        · subst k'
          have hak : a ≠ k := fun e => hne e.symm
          simp [List.lookup, hak]
        · have hb : (a == k') = false := by simpa using h
          simp only [List.lookup, hb]
          exact ih hm.2.2

/-- Reading back what was listed, and every other address as before. -/
theorem Memory.byteAt_put {m : Memory} (hm : m.wf = true) (a b : Addr) (v : Byte) :
    (m.put a v).byteAt b = if b = a then some v else m.byteAt b := by
  have h := Memory.lookup_insertAt (k := a.toNat) (a := b.toNat) (v := v) hm
  rw [Memory.byteAt, Memory.put, h]
  simp only [BitVec.toNat_inj, Memory.byteAt]

/-- An address taken out does not answer, and every other address is as before. -/
theorem Memory.byteAt_remove (m : Memory) (a b : Addr) :
    (m.remove a).byteAt b = if b = a then none else m.byteAt b := by
  have key : ∀ m : Memory, List.lookup b.toNat (m.filter fun cell => cell.1 != a.toNat) =
      if b.toNat = a.toNat then none else List.lookup b.toNat m := by
    intro m
    induction m with
    | nil => simp
    | cons c m ih =>
      obtain ⟨k, v⟩ := c
      by_cases hk : k = a.toNat
      · subst hk
        have hb : ((a.toNat, v).1 != a.toNat) = false := by simp
        rw [List.filter, hb]
        by_cases h : b.toNat = a.toNat
        · simp only [h, ↓reduceIte] at ih ⊢
          exact ih
        · have hb' : (b.toNat == a.toNat) = false := by simpa using h
          simp only [ih, List.lookup, hb']
      · have hb : ((k, v).1 != a.toNat) = true := by simpa using hk
        rw [List.filter, hb]
        by_cases h : b.toNat = k
        · have : b.toNat ≠ a.toNat := h ▸ hk
          have hbeq : (b.toNat == k) = true := by simpa using h
          rw [if_neg this]
          simp only [List.lookup, hbeq]
        · have hb' : (b.toNat == k) = false := by simpa using h
          simp only [List.lookup, hb']
          exact ih
  rw [Memory.byteAt, Memory.remove, key m]
  simp only [BitVec.toNat_inj, Memory.byteAt]

end Sys2Proof.Machine
end

