-- ==== Sys2Proof/Laws/State.lean ====
section
/-! SUPPORT. One lemma per field and update of the state and the register file, so that later proofs unfold no record
update. -/

namespace Sys2Proof.Machine

/-! ## 8-bit register writes -/

@[simp] theorem RegFile.write8_a (r : RegFile) (v : Byte) : r.write8 .a v = { r with a := v } := rfl
@[simp] theorem RegFile.write8_b (r : RegFile) (v : Byte) : r.write8 .b v = { r with b := v } := rfl
@[simp] theorem RegFile.write8_c (r : RegFile) (v : Byte) : r.write8 .c v = { r with c := v } := rfl
@[simp] theorem RegFile.write8_d (r : RegFile) (v : Byte) : r.write8 .d v = { r with d := v } := rfl
@[simp] theorem RegFile.write8_e (r : RegFile) (v : Byte) : r.write8 .e v = { r with e := v } := rfl
@[simp] theorem RegFile.write8_h (r : RegFile) (v : Byte) : r.write8 .h v = { r with h := v } := rfl
@[simp] theorem RegFile.write8_l (r : RegFile) (v : Byte) : r.write8 .l v = { r with l := v } := rfl

/-- A read after a write to the same register gives the value written (R11). -/
@[simp] theorem RegFile.read8_write8_same (r : RegFile) (w : Reg8) (v : Byte) : (r.write8 w v).read8 w = v := by
  cases w <;> rfl

/-- A write leaves every other 8-bit register alone (R11). -/
theorem RegFile.read8_write8_other (r : RegFile) (w w' : Reg8) (v : Byte) (h : w ≠ w') :
    (r.write8 w v).read8 w' = r.read8 w' := by
  cases w <;> cases w' <;> first | rfl | exact absurd rfl h

@[simp] theorem RegFile.write8_f (r : RegFile) (w : Reg8) (v : Byte) : (r.write8 w v).f = r.f := by cases w <;> rfl
@[simp] theorem RegFile.write8_sp (r : RegFile) (w : Reg8) (v : Byte) : (r.write8 w v).sp = r.sp := by cases w <;> rfl
@[simp] theorem RegFile.write8_pc (r : RegFile) (w : Reg8) (v : Byte) : (r.write8 w v).pc = r.pc := by cases w <;> rfl

/-! ## 16-bit writes -/

@[simp] theorem RegFile.write16_bc (r : RegFile) (v : Word) :
    r.write16 .bc v = { r with b := highByte v, c := lowByte v } := rfl
@[simp] theorem RegFile.write16_de (r : RegFile) (v : Word) :
    r.write16 .de v = { r with d := highByte v, e := lowByte v } := rfl
@[simp] theorem RegFile.write16_hl (r : RegFile) (v : Word) :
    r.write16 .hl v = { r with h := highByte v, l := lowByte v } := rfl
@[simp] theorem RegFile.write16_sp_eq (r : RegFile) (v : Word) : r.write16 .sp v = { r with sp := v } := rfl
@[simp] theorem RegFile.write16_a (r : RegFile) (p : Reg16) (v : Word) : (r.write16 p v).a = r.a := by cases p <;> rfl
@[simp] theorem RegFile.write16_f (r : RegFile) (p : Reg16) (v : Word) : (r.write16 p v).f = r.f := by cases p <;> rfl
@[simp] theorem RegFile.write16_pc (r : RegFile) (p : Reg16) (v : Word) : (r.write16 p v).pc = r.pc := by
  cases p <;> rfl

/-! ## Flag writes -/

@[simp] theorem RegFile.writeFlags_eq (r : RegFile) (fl : FlagSet) : r.writeFlags fl = { r with f := pack fl } := rfl

/-! ## The updates of the state, field by field -/

@[simp] theorem State.setReg8_regs (s : State) (w : Reg8) (v : Byte) : (s.setReg8 w v).regs = s.regs.write8 w v := rfl
@[simp] theorem State.setReg8_mem (s : State) (w : Reg8) (v : Byte) : (s.setReg8 w v).mem = s.mem := rfl
@[simp] theorem State.setReg8_lastCycles (s : State) (w : Reg8) (v : Byte) :
    (s.setReg8 w v).lastCycles = s.lastCycles := rfl

@[simp] theorem State.setReg16_regs (s : State) (p : Reg16) (v : Word) :
    (s.setReg16 p v).regs = s.regs.write16 p v := rfl
@[simp] theorem State.setReg16_mem (s : State) (p : Reg16) (v : Word) : (s.setReg16 p v).mem = s.mem := rfl
@[simp] theorem State.setReg16_lastCycles (s : State) (p : Reg16) (v : Word) :
    (s.setReg16 p v).lastCycles = s.lastCycles := rfl

@[simp] theorem State.setFlags_regs (s : State) (fl : FlagSet) :
    (s.setFlags fl).regs = { s.regs with f := pack fl } := rfl
@[simp] theorem State.setFlags_mem (s : State) (fl : FlagSet) : (s.setFlags fl).mem = s.mem := rfl
@[simp] theorem State.setFlags_lastCycles (s : State) (fl : FlagSet) :
    (s.setFlags fl).lastCycles = s.lastCycles := rfl

@[simp] theorem State.advancePc_regs (s : State) :
    s.advancePc.regs = { s.regs with pc := nextPc s.regs.pc } := rfl
@[simp] theorem State.advancePc_mem (s : State) : s.advancePc.mem = s.mem := rfl
@[simp] theorem State.advancePc_lastCycles (s : State) : s.advancePc.lastCycles = s.lastCycles := rfl
@[simp] theorem State.advancePc_reg8 (s : State) (w : Reg8) : s.advancePc.reg8 w = s.reg8 w := by cases w <;> rfl
@[simp] theorem State.advancePc_reg16 (s : State) (p : Reg16) : s.advancePc.reg16 p = s.reg16 p := by cases p <;> rfl
@[simp] theorem State.advancePc_flags (s : State) : s.advancePc.flags = s.flags := rfl

@[simp] theorem State.setCycles_regs (s : State) (n : Byte) : (s.setCycles n).regs = s.regs := rfl
@[simp] theorem State.setCycles_mem (s : State) (n : Byte) : (s.setCycles n).mem = s.mem := rfl
@[simp] theorem State.setCycles_lastCycles (s : State) (n : Byte) : (s.setCycles n).lastCycles = some n := rfl

@[simp] theorem State.attach_regs (s : State) (m : Memory) : (s.attach m).regs = s.regs := rfl
@[simp] theorem State.attach_mem (s : State) (m : Memory) : (s.attach m).mem = m := rfl
@[simp] theorem State.attach_lastCycles (s : State) (m : Memory) : (s.attach m).lastCycles = s.lastCycles := rfl

@[simp] theorem State.withFetchWord_regs (s : State) (nbits w : Nat) : (s.withFetchWord nbits w).regs = s.regs := rfl
@[simp] theorem State.withFetchWord_lastCycles (s : State) (nbits w : Nat) :
    (s.withFetchWord nbits w).lastCycles = s.lastCycles := rfl

@[simp] theorem construct_regs (m : Memory) : (construct m).regs = RegFile.reset := rfl
@[simp] theorem construct_mem (m : Memory) : (construct m).mem = m := rfl
@[simp] theorem construct_lastCycles (m : Memory) : (construct m).lastCycles = none := rfl

end Sys2Proof.Machine
end

