-- ==== Sys2Proof/Laws/Ops.lean ====
section
/-! SUPPORT. One lemma for each shared operation, saying everything it can do: the fetch, the operand resolutions, the
handlers, the dispatch and the fetch with decode. Proofs cite these and unfold nothing. -/

namespace Sys2Proof.Machine

/-! ## Sequencing -/

@[simp] theorem Ran.afterReads_done {α : Type} (rs rs' : List Addr) (v : α) (s : State) :
    (Ran.done v s rs').afterReads rs = .done v s (rs ++ rs') := rfl
@[simp] theorem Ran.afterReads_raised {α : Type} (rs rs' : List Addr) (e : Fault) (s : State) :
    (Ran.raised e s rs' : Ran α).afterReads rs = .raised e s (rs ++ rs') := rfl
@[simp] theorem Ran.afterReads_nil {α : Type} (r : Ran α) : r.afterReads [] = r := by cases r <;> rfl
@[simp] theorem Ran.andThen_done {α β : Type} (v : α) (s : State) (rs : List Addr) (g : α → State → Ran β) :
    (Ran.done v s rs).andThen g = (g v s).afterReads rs := rfl
@[simp] theorem Ran.andThen_raised {α β : Type} (e : Fault) (s : State) (rs : List Addr) (g : α → State → Ran β) :
    (Ran.raised e s rs : Ran α).andThen g = .raised e s rs := rfl
@[simp] theorem Ran.outcome_done (n : Byte) (u : Unit) (s : State) (rs : List Addr) :
    (Ran.done u s rs).outcome n = .next (s.setCycles n) := rfl
@[simp] theorem Ran.outcome_raised (n : Byte) (e : Fault) (s : State) (rs : List Addr) :
    (Ran.raised e s rs : Ran Unit).outcome n = .fault e := rfl
@[simp] theorem raise_eq {α : Type} (e : Fault) (s : State) : (raise e s : Ran α) = .raised e s [] := rfl

/-! ## The fetch -/

/-- A readable byte at `PC` is fetched and `PC` advances. -/
theorem fetch8_of_some {s : State} {b : Byte} (h : s.mem.byteAt s.regs.pc = some b) :
    fetch8 s = .done b s.advancePc [s.regs.pc] := by
  simp [fetch8, memRead, h]

/-- An unreadable `PC` fails, with `PC` where it was. -/
theorem fetch8_of_none {s : State} (h : s.mem.byteAt s.regs.pc = none) :
    fetch8 s = .raised (.failed (.outOfRange s.regs.pc)) s [s.regs.pc] := by
  simp [fetch8, memRead, h]

/-! ## Operand resolution -/

@[simp] theorem resolve8_register8 (w : Reg8) (fam : Family) (s : State) :
    resolve8 (.register8 w) fam s = .done (s.reg8 w) s [] := rfl
@[simp] theorem resolve8_imm8 (fam : Family) (s : State) : resolve8 .imm8 fam s = fetch8 s := rfl
@[simp] theorem resolve16_register16 (w : Reg16) (fam : Family) (s : State) :
    resolve16 (.register16 w) fam s = .done (s.reg16 w) s [] := rfl

/-- The 8-bit families resolve registers and unsigned immediates only. -/
theorem resolve8_other {o : Operand} (hr : ∀ w, o ≠ .register8 w) (hi : o ≠ .imm8) (fam : Family) (s : State) :
    resolve8 o fam s = .raised (.invalidOperand o fam) s [] := by
  cases o with
  | register8 w => exact absurd rfl (hr w)
  | imm8 => exact absurd rfl hi
  | register16 | imm16 | immSigned8 | memory => rfl

/-- ADD16 resolves register pairs and `SP` only. -/
theorem resolve16_other {o : Operand} (hr : ∀ w, o ≠ .register16 w) (fam : Family) (s : State) :
    resolve16 o fam s = .raised (.invalidOperand o fam) s [] := by
  cases o with
  | register16 w => exact absurd rfl (hr w)
  | register8 | imm8 | imm16 | immSigned8 | memory => rfl

/-- ADDSP resolves the signed immediate only. -/
theorem resolveS8_other {o : Operand} (hi : o ≠ .immSigned8) (fam : Family) (s : State) :
    resolveS8 o fam s = .raised (.invalidOperand o fam) s [] := by
  cases o with
  | immSigned8 => exact absurd rfl hi
  | register8 | register16 | imm8 | imm16 | memory => rfl

theorem resolveS8_of_some {s : State} {e : Byte} (fam : Family) (h : s.mem.byteAt s.regs.pc = some e) :
    resolveS8 .immSigned8 fam s = .done (sext16 e) s.advancePc [s.regs.pc] := by
  simp [resolveS8, fetch8_of_some h]

theorem resolveS8_of_none {s : State} (fam : Family) (h : s.mem.byteAt s.regs.pc = none) :
    resolveS8 .immSigned8 fam s = .raised (.failed (.outOfRange s.regs.pc)) s [s.regs.pc] := by
  simp [resolveS8, fetch8_of_none h]

/-- Everything `resolve8` can do. -/
theorem resolve8_cases (o : Operand) (fam : Family) (s : State) :
    (∃ w, o = .register8 w ∧ resolve8 o fam s = .done (s.reg8 w) s []) ∨
    (∃ n, o = .imm8 ∧ s.mem.byteAt s.regs.pc = some n ∧
      resolve8 o fam s = .done n s.advancePc [s.regs.pc]) ∨
    (o = .imm8 ∧ s.mem.byteAt s.regs.pc = none ∧
      resolve8 o fam s = .raised (.failed (.outOfRange s.regs.pc)) s [s.regs.pc]) ∨
    ((∀ w, o ≠ .register8 w) ∧ o ≠ .imm8 ∧ resolve8 o fam s = .raised (.invalidOperand o fam) s []) := by
  cases o with
  | register8 w => exact .inl ⟨w, rfl, rfl⟩
  | imm8 =>
    cases h : s.mem.byteAt s.regs.pc with
    | some n => exact .inr (.inl ⟨n, rfl, rfl, fetch8_of_some h⟩)
    | none => exact .inr (.inr (.inl ⟨rfl, rfl, fetch8_of_none h⟩))
  | register16 | imm16 | immSigned8 | memory =>
    exact .inr (.inr (.inr ⟨by intro w; simp, by simp, rfl⟩))

/-! ## The dispatch -/

/-- Every arm runs the handler of its instruction's family on its operand and returns its count (R93). -/
theorem exec_eq_handle (i : Instr) (s : State) : exec i s = (handle i.family i.operand s).outcome i.cycles := by
  cases i <;> rfl

/-! ## Fetch and decode -/

/-- Everything `fetchDecode` can do. -/
theorem fetchDecode_cases (s : State) :
    (s.mem.byteAt s.regs.pc = none ∧
      fetchDecode s = .raised (.failed (.outOfRange s.regs.pc)) s [s.regs.pc]) ∨
    (∃ op, s.mem.byteAt s.regs.pc = some op ∧ decode op = .error (.invalidOpcode op) ∧
      fetchDecode s = .raised (.invalidOpcode op) s.advancePc [s.regs.pc]) ∨
    (∃ op i, s.mem.byteAt s.regs.pc = some op ∧ decode op = .ok i ∧
      fetchDecode s = .done i s.advancePc [s.regs.pc]) := by
  cases h : s.mem.byteAt s.regs.pc with
  | none => exact .inl ⟨rfl, by simp [fetchDecode, fetch8_of_none h]⟩
  | some op =>
    right
    cases hd : decode op with
    | ok i => exact .inr ⟨op, i, rfl, hd, by simp [fetchDecode, fetch8_of_some h, hd]⟩
    | error e =>
      have he : e = .invalidOpcode op := by
        unfold decode decodeIn at hd
        split at hd
        · cases hd
        · exact (Except.error.inj hd).symm
      subst he
      exact .inl ⟨op, rfl, hd, by simp [fetchDecode, fetch8_of_some h, hd, faultOfDecode]⟩

end Sys2Proof.Machine
end

