-- ==== Sys2Proof/Laws/PerInstr.lean ====
section
/-! SUPPORT. Two statements made per instruction, each with one lemma per constructor of `Instr`: the opcode byte
decodes to the instruction, and the value the decoder attaches to it is well formed. -/

namespace Sys2Proof.Laws

/-- The instruction's opcode byte decodes to it (R55). -/
def OpcodeDecodes.Statement (i : Instr) : Prop := decode (opcode i) = .ok i

/-- The value of the instruction is one that R55 and R59 allow. -/
def ValueWellFormed.Statement (i : Instr) : Prop := i.value.wellFormed = true

theorem OpcodeDecodes.addAB : OpcodeDecodes.Statement .addAB := rfl
theorem OpcodeDecodes.addAC : OpcodeDecodes.Statement .addAC := rfl
theorem OpcodeDecodes.addAD : OpcodeDecodes.Statement .addAD := rfl
theorem OpcodeDecodes.addAE : OpcodeDecodes.Statement .addAE := rfl
theorem OpcodeDecodes.addAH : OpcodeDecodes.Statement .addAH := rfl
theorem OpcodeDecodes.addAL : OpcodeDecodes.Statement .addAL := rfl
theorem OpcodeDecodes.addAMemHl : OpcodeDecodes.Statement .addAMemHl := rfl
theorem OpcodeDecodes.addAA : OpcodeDecodes.Statement .addAA := rfl
theorem OpcodeDecodes.addAN : OpcodeDecodes.Statement .addAN := rfl
theorem OpcodeDecodes.addHlBc : OpcodeDecodes.Statement .addHlBc := rfl
theorem OpcodeDecodes.addHlDe : OpcodeDecodes.Statement .addHlDe := rfl
theorem OpcodeDecodes.addHlHl : OpcodeDecodes.Statement .addHlHl := rfl
theorem OpcodeDecodes.addHlSp : OpcodeDecodes.Statement .addHlSp := rfl
theorem OpcodeDecodes.addSpE : OpcodeDecodes.Statement .addSpE := rfl
theorem OpcodeDecodes.adcAB : OpcodeDecodes.Statement .adcAB := rfl
theorem OpcodeDecodes.adcAC : OpcodeDecodes.Statement .adcAC := rfl
theorem OpcodeDecodes.adcAD : OpcodeDecodes.Statement .adcAD := rfl
theorem OpcodeDecodes.adcAE : OpcodeDecodes.Statement .adcAE := rfl
theorem OpcodeDecodes.adcAH : OpcodeDecodes.Statement .adcAH := rfl
theorem OpcodeDecodes.adcAL : OpcodeDecodes.Statement .adcAL := rfl
theorem OpcodeDecodes.adcAMemHl : OpcodeDecodes.Statement .adcAMemHl := rfl
theorem OpcodeDecodes.adcAA : OpcodeDecodes.Statement .adcAA := rfl
theorem OpcodeDecodes.adcAN : OpcodeDecodes.Statement .adcAN := rfl
theorem OpcodeDecodes.subB : OpcodeDecodes.Statement .subB := rfl
theorem OpcodeDecodes.subC : OpcodeDecodes.Statement .subC := rfl
theorem OpcodeDecodes.subD : OpcodeDecodes.Statement .subD := rfl
theorem OpcodeDecodes.subE : OpcodeDecodes.Statement .subE := rfl
theorem OpcodeDecodes.subH : OpcodeDecodes.Statement .subH := rfl
theorem OpcodeDecodes.subL : OpcodeDecodes.Statement .subL := rfl
theorem OpcodeDecodes.subMemHl : OpcodeDecodes.Statement .subMemHl := rfl
theorem OpcodeDecodes.subA : OpcodeDecodes.Statement .subA := rfl
theorem OpcodeDecodes.subN : OpcodeDecodes.Statement .subN := rfl
theorem OpcodeDecodes.sbcAB : OpcodeDecodes.Statement .sbcAB := rfl
theorem OpcodeDecodes.sbcAC : OpcodeDecodes.Statement .sbcAC := rfl
theorem OpcodeDecodes.sbcAD : OpcodeDecodes.Statement .sbcAD := rfl
theorem OpcodeDecodes.sbcAE : OpcodeDecodes.Statement .sbcAE := rfl
theorem OpcodeDecodes.sbcAH : OpcodeDecodes.Statement .sbcAH := rfl
theorem OpcodeDecodes.sbcAL : OpcodeDecodes.Statement .sbcAL := rfl
theorem OpcodeDecodes.sbcAMemHl : OpcodeDecodes.Statement .sbcAMemHl := rfl
theorem OpcodeDecodes.sbcAA : OpcodeDecodes.Statement .sbcAA := rfl
theorem OpcodeDecodes.sbcAN : OpcodeDecodes.Statement .sbcAN := rfl
theorem OpcodeDecodes.cpB : OpcodeDecodes.Statement .cpB := rfl
theorem OpcodeDecodes.cpC : OpcodeDecodes.Statement .cpC := rfl
theorem OpcodeDecodes.cpD : OpcodeDecodes.Statement .cpD := rfl
theorem OpcodeDecodes.cpE : OpcodeDecodes.Statement .cpE := rfl
theorem OpcodeDecodes.cpH : OpcodeDecodes.Statement .cpH := rfl
theorem OpcodeDecodes.cpL : OpcodeDecodes.Statement .cpL := rfl
theorem OpcodeDecodes.cpMemHl : OpcodeDecodes.Statement .cpMemHl := rfl
theorem OpcodeDecodes.cpA : OpcodeDecodes.Statement .cpA := rfl
theorem OpcodeDecodes.cpN : OpcodeDecodes.Statement .cpN := rfl

theorem ValueWellFormed.addAB : ValueWellFormed.Statement .addAB := rfl
theorem ValueWellFormed.addAC : ValueWellFormed.Statement .addAC := rfl
theorem ValueWellFormed.addAD : ValueWellFormed.Statement .addAD := rfl
theorem ValueWellFormed.addAE : ValueWellFormed.Statement .addAE := rfl
theorem ValueWellFormed.addAH : ValueWellFormed.Statement .addAH := rfl
theorem ValueWellFormed.addAL : ValueWellFormed.Statement .addAL := rfl
theorem ValueWellFormed.addAMemHl : ValueWellFormed.Statement .addAMemHl := rfl
theorem ValueWellFormed.addAA : ValueWellFormed.Statement .addAA := rfl
theorem ValueWellFormed.addAN : ValueWellFormed.Statement .addAN := rfl
theorem ValueWellFormed.addHlBc : ValueWellFormed.Statement .addHlBc := rfl
theorem ValueWellFormed.addHlDe : ValueWellFormed.Statement .addHlDe := rfl
theorem ValueWellFormed.addHlHl : ValueWellFormed.Statement .addHlHl := rfl
theorem ValueWellFormed.addHlSp : ValueWellFormed.Statement .addHlSp := rfl
theorem ValueWellFormed.addSpE : ValueWellFormed.Statement .addSpE := rfl
theorem ValueWellFormed.adcAB : ValueWellFormed.Statement .adcAB := rfl
theorem ValueWellFormed.adcAC : ValueWellFormed.Statement .adcAC := rfl
theorem ValueWellFormed.adcAD : ValueWellFormed.Statement .adcAD := rfl
theorem ValueWellFormed.adcAE : ValueWellFormed.Statement .adcAE := rfl
theorem ValueWellFormed.adcAH : ValueWellFormed.Statement .adcAH := rfl
theorem ValueWellFormed.adcAL : ValueWellFormed.Statement .adcAL := rfl
theorem ValueWellFormed.adcAMemHl : ValueWellFormed.Statement .adcAMemHl := rfl
theorem ValueWellFormed.adcAA : ValueWellFormed.Statement .adcAA := rfl
theorem ValueWellFormed.adcAN : ValueWellFormed.Statement .adcAN := rfl
theorem ValueWellFormed.subB : ValueWellFormed.Statement .subB := rfl
theorem ValueWellFormed.subC : ValueWellFormed.Statement .subC := rfl
theorem ValueWellFormed.subD : ValueWellFormed.Statement .subD := rfl
theorem ValueWellFormed.subE : ValueWellFormed.Statement .subE := rfl
theorem ValueWellFormed.subH : ValueWellFormed.Statement .subH := rfl
theorem ValueWellFormed.subL : ValueWellFormed.Statement .subL := rfl
theorem ValueWellFormed.subMemHl : ValueWellFormed.Statement .subMemHl := rfl
theorem ValueWellFormed.subA : ValueWellFormed.Statement .subA := rfl
theorem ValueWellFormed.subN : ValueWellFormed.Statement .subN := rfl
theorem ValueWellFormed.sbcAB : ValueWellFormed.Statement .sbcAB := rfl
theorem ValueWellFormed.sbcAC : ValueWellFormed.Statement .sbcAC := rfl
theorem ValueWellFormed.sbcAD : ValueWellFormed.Statement .sbcAD := rfl
theorem ValueWellFormed.sbcAE : ValueWellFormed.Statement .sbcAE := rfl
theorem ValueWellFormed.sbcAH : ValueWellFormed.Statement .sbcAH := rfl
theorem ValueWellFormed.sbcAL : ValueWellFormed.Statement .sbcAL := rfl
theorem ValueWellFormed.sbcAMemHl : ValueWellFormed.Statement .sbcAMemHl := rfl
theorem ValueWellFormed.sbcAA : ValueWellFormed.Statement .sbcAA := rfl
theorem ValueWellFormed.sbcAN : ValueWellFormed.Statement .sbcAN := rfl
theorem ValueWellFormed.cpB : ValueWellFormed.Statement .cpB := rfl
theorem ValueWellFormed.cpC : ValueWellFormed.Statement .cpC := rfl
theorem ValueWellFormed.cpD : ValueWellFormed.Statement .cpD := rfl
theorem ValueWellFormed.cpE : ValueWellFormed.Statement .cpE := rfl
theorem ValueWellFormed.cpH : ValueWellFormed.Statement .cpH := rfl
theorem ValueWellFormed.cpL : ValueWellFormed.Statement .cpL := rfl
theorem ValueWellFormed.cpMemHl : ValueWellFormed.Statement .cpMemHl := rfl
theorem ValueWellFormed.cpA : ValueWellFormed.Statement .cpA := rfl
theorem ValueWellFormed.cpN : ValueWellFormed.Statement .cpN := rfl

end Sys2Proof.Laws
end

