-- ==== Sys2Proof/Laws/Run.lean ====
section
/-! SUPPORT. Runs: what one tick adds to a run, and how a longer run follows from a shorter one. Proofs about runs cite
these and do not unfold `runTicks`. -/

namespace Sys2Proof.Machine

@[simp] theorem runTicks_zero (s : State) : runTicks 0 s = { counts := [], last := s, ending := .ticksDone } := rfl

/-- A completed tick adds its count in front of the rest of the run. -/
theorem runTicks_of_next {s t : State} (h : step s = .next t) (n : Nat) :
    runTicks (n + 1) s = { runTicks n t with counts := t.lastCycles.toList ++ (runTicks n t).counts } := by
  simp only [runTicks, h]

/-- A failed tick ends the run before it. -/
theorem runTicks_of_fault {s : State} {e : Fault} (h : step s = .fault e) (n : Nat) :
    runTicks (n + 1) s = { counts := [], last := s, ending := .fault e } := by
  simp only [runTicks, h]

theorem safeFor_zero (s : State) : SafeFor 0 s := rfl

/-- A run is safe for one tick more when that tick completes and the rest is safe. -/
theorem safeFor_succ {n : Nat} {s : State} : SafeFor (n + 1) s ↔ ∃ t, step s = .next t ∧ SafeFor n t := by
  unfold SafeFor
  cases h : step s with
  | next t => rw [runTicks_of_next h]; simp
  | fault e => rw [runTicks_of_fault h]; simp
  | refused r => simp [runTicks, h]

/-- The run of `m + n` ticks is the run of `m` and, if that did not end by itself, the run of `n` from its end. -/
theorem runTicks_add (m n : Nat) (s : State) :
    runTicks (m + n) s =
      if (runTicks m s).ending = .ticksDone then
        { counts := (runTicks m s).counts ++ (runTicks n (runTicks m s).last).counts
          last := (runTicks n (runTicks m s).last).last
          ending := (runTicks n (runTicks m s).last).ending }
      else runTicks m s := by
  induction m generalizing s with
  | zero => simp
  | succ m ih =>
    rw [Nat.succ_add]
    cases h : step s with
    | next t => rw [runTicks_of_next h, runTicks_of_next h, ih t]; split <;> simp
    | fault e => rw [runTicks_of_fault h, runTicks_of_fault h]; simp
    | refused r => simp [runTicks, h]

/-- A safe run is continued from its last state. -/
theorem runTicks_add_of_safe {m : Nat} {s : State} (h : SafeFor m s) (n : Nat) :
    runTicks (m + n) s =
      { counts := (runTicks m s).counts ++ (runTicks n (runTicks m s).last).counts
        last := (runTicks n (runTicks m s).last).last
        ending := (runTicks n (runTicks m s).last).ending } := by
  rw [runTicks_add]
  exact if_pos h

/-- A run that fails fails the same however many more ticks are chosen. -/
theorem runTicks_add_of_not_safe {m : Nat} {s : State} (h : ¬ SafeFor m s) (n : Nat) :
    runTicks (m + n) s = runTicks m s := by
  rw [runTicks_add]
  exact if_neg h

/-- After a safe run, safety is that of the run from its last state. -/
theorem safeFor_add {m n : Nat} {s : State} (h : SafeFor m s) :
    SafeFor (m + n) s ↔ SafeFor n (runTicks m s).last := by
  unfold SafeFor
  rw [runTicks_add_of_safe h]

/-- A safe run is safe for fewer ticks. -/
theorem SafeFor.mono {m n : Nat} {s : State} (h : SafeFor n s) (hm : m ≤ n) : SafeFor m s := by
  obtain ⟨k, rfl⟩ := Nat.exists_eq_add_of_le hm
  refine Classical.byContradiction fun hs => hs ?_
  unfold SafeFor at h
  rwa [runTicks_add_of_not_safe hs k] at h

end Sys2Proof.Machine
end

