-- ==== Sys2Proof/Tests/Slice0.lean ====
section
/-! SUPPORT. The model's own tests: the smoke tests of WellFormed, decoding, one tick of each instruction, the faults, and
for every obligation with hypotheses a concrete state and operands that meet them. Expected values are copied from the
tables of spec/95_test_vectors.md (each theorem names its vectors) or, where the docstring says so, worked out by hand
from a rule; none is the model's own answer. -/

namespace Sys2Proof.Tests
open Sys2Proof Sys2Proof.Machine Sys2Proof.Claims

/-! ## Helpers -/

/-- The launch registers of 95_test_vectors.md section 2.11. -/
def launchRegs : RegFile :=
  { a := 0x9C, b := 0x64, c := 0x0F, d := 0xA0, e := 0x9C, h := 0x12, l := 0xF4, f := 0x10, sp := 0xFFF0, pc := 0x0100 }

/-- Those registers with another `PC`, and bytes from `PC` on (wrapping). -/
def stateAt (pc : Word) (bytes : List Byte) : State :=
  { regs := { launchRegs with pc := pc }
    mem := (bytes.zipIdx.foldl (fun m p => Memory.put m (pc + BitVec.ofNat 16 p.2) p.1) [])
    lastCycles := none }

/-- What a tick leaves: the registers and the returned count, where it completed. -/
def afterStep (s : State) : Option (RegFile × Option Byte) :=
  match step s with
  | .next t => some (t.regs, t.lastCycles)
  | .fault _ => none
  | .refused _ => none

/-- The fault a tick ends in. -/
def faultOf (s : State) : Option Fault :=
  match step s with
  | .next _ => none
  | .fault e => some e
  | .refused _ => none

/-- One tick of section 2.11: the opcode byte at `0100` and `7B` after it. -/
def tickOf (op : Byte) : Option (RegFile × Option Byte) := afterStep (stateAt 0x0100 [op, 0x7B])

/-- The state of V-FAULT: exactly the listed bytes from address 0. -/
def bufferState (r : RegFile) (bytes : List Byte) : State := { regs := r, mem := Memory.ofBuffer bytes, lastCycles := none }

/-! ## WellFormed smoke tests: each check refuses an ill-formed term -/

/-- `ADD HL,B` is no value the decoder can build: the operand kind is not ADD16's (R55). -/
theorem test_wellFormed_refuses_unassigned_operand :
    ({ family := .add16, operand := .register8 .b, cycles := 8 } : InstrValue).wellFormed = false := by decide

/-- `Imm16` is assigned to no family (R62). -/
theorem test_wellFormed_refuses_imm16 :
    ({ family := .add8, operand := .imm16, cycles := 8 } : InstrValue).wellFormed = false := by decide

/-- `ADD A,B` with the count 8: R59 gives 4. -/
theorem test_wellFormed_refuses_wrong_count :
    ({ family := .add8, operand := .register8 .b, cycles := 8 } : InstrValue).wellFormed = false := by decide

/-- `ADD A,n` without its trailing byte (R45). -/
theorem test_wellFormed_refuses_missing_trailing :
    ({ instr := .addAN, trailing := none } : FullInstr).wellFormed = false := by decide

/-- `ADD A,B` with a trailing byte it does not have (R45). -/
theorem test_wellFormed_refuses_surplus_trailing :
    ({ instr := .addAB, trailing := some 0x00 } : FullInstr).wellFormed = false := by decide

/-- Well-formed terms are accepted. -/
theorem test_wellFormed_accepts :
    ({ family := .addsp, operand := .immSigned8, cycles := 16 } : InstrValue).wellFormed = true ∧
    ({ instr := .addSpE, trailing := some 0xFE } : FullInstr).wellFormed = true ∧
    ({ instr := .addHlSp, trailing := none } : FullInstr).wellFormed = true := by decide

/-! ## Decoding: V-DEC-1 to V-DEC-83, the opcode bytes written bit by bit from the fields of R49 to R52 -/

/-- ADD8: V-DEC-5, V-DEC-6, V-DEC-7, V-DEC-8, V-DEC-9, V-DEC-10, V-DEC-11, V-DEC-12, V-DEC-45. -/
theorem test_decode_add8 :
    decode 0b10000000 = .ok .addAB ∧ Instr.value .addAB = { family := .add8, operand := .register8 .b, cycles := 4 } ∧
    decode 0b10000001 = .ok .addAC ∧ Instr.value .addAC = { family := .add8, operand := .register8 .c, cycles := 4 } ∧
    decode 0b10000010 = .ok .addAD ∧ Instr.value .addAD = { family := .add8, operand := .register8 .d, cycles := 4 } ∧
    decode 0b10000011 = .ok .addAE ∧ Instr.value .addAE = { family := .add8, operand := .register8 .e, cycles := 4 } ∧
    decode 0b10000100 = .ok .addAH ∧ Instr.value .addAH = { family := .add8, operand := .register8 .h, cycles := 4 } ∧
    decode 0b10000101 = .ok .addAL ∧ Instr.value .addAL = { family := .add8, operand := .register8 .l, cycles := 4 } ∧
    decode 0b10000110 = .ok .addAMemHl ∧ Instr.value .addAMemHl = { family := .add8, operand := .memory .hl, cycles := 8 } ∧
    decode 0b10000111 = .ok .addAA ∧ Instr.value .addAA = { family := .add8, operand := .register8 .a, cycles := 4 } ∧
    decode 0b11000110 = .ok .addAN ∧ Instr.value .addAN = { family := .add8, operand := .imm8, cycles := 8 } := by
  refine ⟨rfl, rfl, rfl, rfl, rfl, rfl, rfl, rfl, rfl, rfl, rfl, rfl, rfl, rfl, rfl, rfl, rfl, rfl⟩

/-- ADD16: V-DEC-1, V-DEC-2, V-DEC-3, V-DEC-4. -/
theorem test_decode_add16 :
    decode 0b00001001 = .ok .addHlBc ∧ Instr.value .addHlBc = { family := .add16, operand := .register16 .bc, cycles := 8 } ∧
    decode 0b00011001 = .ok .addHlDe ∧ Instr.value .addHlDe = { family := .add16, operand := .register16 .de, cycles := 8 } ∧
    decode 0b00101001 = .ok .addHlHl ∧ Instr.value .addHlHl = { family := .add16, operand := .register16 .hl, cycles := 8 } ∧
    decode 0b00111001 = .ok .addHlSp ∧ Instr.value .addHlSp = { family := .add16, operand := .register16 .sp, cycles := 8 } := by
  refine ⟨rfl, rfl, rfl, rfl, rfl, rfl, rfl, rfl⟩

/-- ADDSP: V-DEC-49. -/
theorem test_decode_addsp :
    decode 0b11101000 = .ok .addSpE ∧ Instr.value .addSpE = { family := .addsp, operand := .immSigned8, cycles := 16 } := by
  refine ⟨rfl, rfl⟩

/-- ADC: V-DEC-13, V-DEC-14, V-DEC-15, V-DEC-16, V-DEC-17, V-DEC-18, V-DEC-19, V-DEC-20, V-DEC-46. -/
theorem test_decode_adc :
    decode 0b10001000 = .ok .adcAB ∧ Instr.value .adcAB = { family := .adc, operand := .register8 .b, cycles := 4 } ∧
    decode 0b10001001 = .ok .adcAC ∧ Instr.value .adcAC = { family := .adc, operand := .register8 .c, cycles := 4 } ∧
    decode 0b10001010 = .ok .adcAD ∧ Instr.value .adcAD = { family := .adc, operand := .register8 .d, cycles := 4 } ∧
    decode 0b10001011 = .ok .adcAE ∧ Instr.value .adcAE = { family := .adc, operand := .register8 .e, cycles := 4 } ∧
    decode 0b10001100 = .ok .adcAH ∧ Instr.value .adcAH = { family := .adc, operand := .register8 .h, cycles := 4 } ∧
    decode 0b10001101 = .ok .adcAL ∧ Instr.value .adcAL = { family := .adc, operand := .register8 .l, cycles := 4 } ∧
    decode 0b10001110 = .ok .adcAMemHl ∧ Instr.value .adcAMemHl = { family := .adc, operand := .memory .hl, cycles := 8 } ∧
    decode 0b10001111 = .ok .adcAA ∧ Instr.value .adcAA = { family := .adc, operand := .register8 .a, cycles := 4 } ∧
    decode 0b11001110 = .ok .adcAN ∧ Instr.value .adcAN = { family := .adc, operand := .imm8, cycles := 8 } := by
  refine ⟨rfl, rfl, rfl, rfl, rfl, rfl, rfl, rfl, rfl, rfl, rfl, rfl, rfl, rfl, rfl, rfl, rfl, rfl⟩

/-- SUB: V-DEC-21, V-DEC-22, V-DEC-23, V-DEC-24, V-DEC-25, V-DEC-26, V-DEC-27, V-DEC-28, V-DEC-47. -/
theorem test_decode_sub :
    decode 0b10010000 = .ok .subB ∧ Instr.value .subB = { family := .sub, operand := .register8 .b, cycles := 4 } ∧
    decode 0b10010001 = .ok .subC ∧ Instr.value .subC = { family := .sub, operand := .register8 .c, cycles := 4 } ∧
    decode 0b10010010 = .ok .subD ∧ Instr.value .subD = { family := .sub, operand := .register8 .d, cycles := 4 } ∧
    decode 0b10010011 = .ok .subE ∧ Instr.value .subE = { family := .sub, operand := .register8 .e, cycles := 4 } ∧
    decode 0b10010100 = .ok .subH ∧ Instr.value .subH = { family := .sub, operand := .register8 .h, cycles := 4 } ∧
    decode 0b10010101 = .ok .subL ∧ Instr.value .subL = { family := .sub, operand := .register8 .l, cycles := 4 } ∧
    decode 0b10010110 = .ok .subMemHl ∧ Instr.value .subMemHl = { family := .sub, operand := .memory .hl, cycles := 8 } ∧
    decode 0b10010111 = .ok .subA ∧ Instr.value .subA = { family := .sub, operand := .register8 .a, cycles := 4 } ∧
    decode 0b11010110 = .ok .subN ∧ Instr.value .subN = { family := .sub, operand := .imm8, cycles := 8 } := by
  refine ⟨rfl, rfl, rfl, rfl, rfl, rfl, rfl, rfl, rfl, rfl, rfl, rfl, rfl, rfl, rfl, rfl, rfl, rfl⟩

/-- SBC: V-DEC-29, V-DEC-30, V-DEC-31, V-DEC-32, V-DEC-33, V-DEC-34, V-DEC-35, V-DEC-36, V-DEC-48. -/
theorem test_decode_sbc :
    decode 0b10011000 = .ok .sbcAB ∧ Instr.value .sbcAB = { family := .sbc, operand := .register8 .b, cycles := 4 } ∧
    decode 0b10011001 = .ok .sbcAC ∧ Instr.value .sbcAC = { family := .sbc, operand := .register8 .c, cycles := 4 } ∧
    decode 0b10011010 = .ok .sbcAD ∧ Instr.value .sbcAD = { family := .sbc, operand := .register8 .d, cycles := 4 } ∧
    decode 0b10011011 = .ok .sbcAE ∧ Instr.value .sbcAE = { family := .sbc, operand := .register8 .e, cycles := 4 } ∧
    decode 0b10011100 = .ok .sbcAH ∧ Instr.value .sbcAH = { family := .sbc, operand := .register8 .h, cycles := 4 } ∧
    decode 0b10011101 = .ok .sbcAL ∧ Instr.value .sbcAL = { family := .sbc, operand := .register8 .l, cycles := 4 } ∧
    decode 0b10011110 = .ok .sbcAMemHl ∧ Instr.value .sbcAMemHl = { family := .sbc, operand := .memory .hl, cycles := 8 } ∧
    decode 0b10011111 = .ok .sbcAA ∧ Instr.value .sbcAA = { family := .sbc, operand := .register8 .a, cycles := 4 } ∧
    decode 0b11011110 = .ok .sbcAN ∧ Instr.value .sbcAN = { family := .sbc, operand := .imm8, cycles := 8 } := by
  refine ⟨rfl, rfl, rfl, rfl, rfl, rfl, rfl, rfl, rfl, rfl, rfl, rfl, rfl, rfl, rfl, rfl, rfl, rfl⟩

/-- CP: V-DEC-37, V-DEC-38, V-DEC-39, V-DEC-40, V-DEC-41, V-DEC-42, V-DEC-43, V-DEC-44, V-DEC-50. -/
theorem test_decode_cp :
    decode 0b10111000 = .ok .cpB ∧ Instr.value .cpB = { family := .cp, operand := .register8 .b, cycles := 4 } ∧
    decode 0b10111001 = .ok .cpC ∧ Instr.value .cpC = { family := .cp, operand := .register8 .c, cycles := 4 } ∧
    decode 0b10111010 = .ok .cpD ∧ Instr.value .cpD = { family := .cp, operand := .register8 .d, cycles := 4 } ∧
    decode 0b10111011 = .ok .cpE ∧ Instr.value .cpE = { family := .cp, operand := .register8 .e, cycles := 4 } ∧
    decode 0b10111100 = .ok .cpH ∧ Instr.value .cpH = { family := .cp, operand := .register8 .h, cycles := 4 } ∧
    decode 0b10111101 = .ok .cpL ∧ Instr.value .cpL = { family := .cp, operand := .register8 .l, cycles := 4 } ∧
    decode 0b10111110 = .ok .cpMemHl ∧ Instr.value .cpMemHl = { family := .cp, operand := .memory .hl, cycles := 8 } ∧
    decode 0b10111111 = .ok .cpA ∧ Instr.value .cpA = { family := .cp, operand := .register8 .a, cycles := 4 } ∧
    decode 0b11111110 = .ok .cpN ∧ Instr.value .cpN = { family := .cp, operand := .imm8, cycles := 8 } := by
  refine ⟨rfl, rfl, rfl, rfl, rfl, rfl, rfl, rfl, rfl, rfl, rfl, rfl, rfl, rfl, rfl, rfl, rfl, rfl⟩

/-- V-DEC-51 to V-DEC-83: unassigned bytes, every boundary of an assigned range among them. -/
theorem test_decode_unassigned :
    ∀ b ∈ ([0x00, 0x08, 0x0A, 0x18, 0x1A, 0x28, 0x2A, 0x38, 0x3A, 0x76, 0x7F] ++
      [0xA0, 0xA7, 0xB0, 0xB7, 0xC0, 0xC5, 0xC7, 0xCB, 0xCD, 0xCF, 0xD5] ++
      [0xD7, 0xDD, 0xDF, 0xE6, 0xE7, 0xE9, 0xEE, 0xF6, 0xF8, 0xFD, 0xFF] : List Byte),
      (decode b).toOption = none := by decide

/-- The encoder writes the opcode byte and then the immediate (R45). -/
theorem test_encode :
    encode { instr := .addSpE, trailing := some 0xFE } = [0xE8, 0xFE] ∧
    encode { instr := .cpA, trailing := none } = [0xBF] := by decide

/-- Two bytes and the rest; a missing trailing byte and a missing opcode byte are refused by name. -/
theorem test_decodeBytes :
    (decodeBytes [0xC6, 0x03, 0x80]).toOption = some ({ instr := .addAN, trailing := some 0x03 }, [0x80]) ∧
    (decodeBytes [0xC6]).toOption = none ∧ (decodeBytes []).toOption = none := by decide

/-- The host's question: `ADD HL,SP` and `ADD SP,e` from the words of their rows, and an unassigned word. -/
theorem test_decodeTableWord :
    decodeTableWord 8 0x39 = some .addHlSp ∧ decodeTableWord 8 0xE8 = some .addSpE ∧
    decodeTableWord 16 0x05E8 = some .addSpE ∧ decodeTableWord 8 0xFF = none := by decide

/-- The word of a row is fetched and run by the next step from reset: `ADD A,3` of S-1, the operand in bits 15 to 8. -/
theorem test_withFetchWord :
    afterStep (State.reset.withFetchWord 16 0x03C6) =
      some ({ RegFile.reset with a := 0x03, pc := 0x0002 }, some 8) := by decide

/-! ## Flags and pairs: V-PACK, V-PAIR -/

/-- V-PACK-1 to V-PACK-9. -/
theorem test_pack :
    pack { z := false, n := false, h := false, c := false } = 0x00 ∧
    pack { z := true, n := false, h := false, c := false } = 0x80 ∧
    pack { z := false, n := true, h := false, c := false } = 0x40 ∧
    pack { z := false, n := false, h := true, c := false } = 0x20 ∧
    pack { z := false, n := false, h := false, c := true } = 0x10 ∧
    pack { z := true, n := false, h := true, c := true } = 0xB0 ∧
    pack { z := false, n := true, h := true, c := true } = 0x70 ∧
    pack { z := true, n := true, h := false, c := false } = 0xC0 ∧
    pack { z := true, n := true, h := true, c := true } = 0xF0 := by decide

/-- V-PACK-10 and V-PACK-11. -/
theorem test_unpack :
    unpack 0xB0 = { z := true, n := false, h := true, c := true } ∧
    unpack 0x40 = { z := false, n := true, h := false, c := false } := by decide

/-- V-PAIR-1, V-PAIR-2 and V-PAIR-5: reads, high byte first. -/
theorem test_pair_reads :
    ({ RegFile.reset with b := 0x12, c := 0x34 }).read16 .bc = 0x1234 ∧
    ({ RegFile.reset with d := 0x00, e := 0xFF }).read16 .de = 0x00FF ∧
    ({ RegFile.reset with h := 0xFF, l := 0xFE }).read16 .hl = 0xFFFE := by decide

/-- V-PAIR-3 and V-PAIR-4: writes. -/
theorem test_pair_writes :
    launchRegs.write16 .hl 0xABCD = { launchRegs with h := 0xAB, l := 0xCD } ∧
    launchRegs.write16 .hl 0x0100 = { launchRegs with h := 0x01, l := 0x00 } := by decide

/-! ## The primitives -/

/-- V-ADD8-1 to V-ADD8-12. -/
theorem test_add8 :
    (add8 0x00 0x00).value = 0x00 ∧ pack (add8 0x00 0x00).flags = 0x80 ∧
    (add8 0x01 0xFF).value = 0x00 ∧ pack (add8 0x01 0xFF).flags = 0xB0 ∧
    (add8 0x3A 0xC6).value = 0x00 ∧ pack (add8 0x3A 0xC6).flags = 0xB0 ∧
    (add8 0x0F 0x01).value = 0x10 ∧ pack (add8 0x0F 0x01).flags = 0x20 ∧
    (add8 0x80 0x80).value = 0x00 ∧ pack (add8 0x80 0x80).flags = 0x90 ∧
    (add8 0xF0 0x10).value = 0x00 ∧ pack (add8 0xF0 0x10).flags = 0x90 ∧
    (add8 0x08 0x08).value = 0x10 ∧ pack (add8 0x08 0x08).flags = 0x20 ∧
    (add8 0xFF 0xFF).value = 0xFE ∧ pack (add8 0xFF 0xFF).flags = 0x30 ∧
    (add8 0x12 0x34).value = 0x46 ∧ pack (add8 0x12 0x34).flags = 0x00 ∧
    (add8 0x7F 0x01).value = 0x80 ∧ pack (add8 0x7F 0x01).flags = 0x20 ∧
    (add8 0xFF 0x00).value = 0xFF ∧ pack (add8 0xFF 0x00).flags = 0x00 ∧
    (add8 0x00 0xFF).value = 0xFF ∧ pack (add8 0x00 0xFF).flags = 0x00 := by decide

/-- V-ADC-1 to V-ADC-14. -/
theorem test_adc8 :
    (adc8 0x00 0x00 false).value = 0x00 ∧ pack (adc8 0x00 0x00 false).flags = 0x80 ∧
    (adc8 0x00 0x00 true).value = 0x01 ∧ pack (adc8 0x00 0x00 true).flags = 0x00 ∧
    (adc8 0xE1 0x0F true).value = 0xF1 ∧ pack (adc8 0xE1 0x0F true).flags = 0x20 ∧
    (adc8 0xE1 0x3B true).value = 0x1D ∧ pack (adc8 0xE1 0x3B true).flags = 0x10 ∧
    (adc8 0x00 0x01 false).value = 0x01 ∧ pack (adc8 0x00 0x01 false).flags = 0x00 ∧
    (adc8 0xE1 0x1E true).value = 0x00 ∧ pack (adc8 0xE1 0x1E true).flags = 0xB0 ∧
    (adc8 0xFF 0x00 true).value = 0x00 ∧ pack (adc8 0xFF 0x00 true).flags = 0xB0 ∧
    (adc8 0x0F 0x00 true).value = 0x10 ∧ pack (adc8 0x0F 0x00 true).flags = 0x20 ∧
    (adc8 0xFF 0x01 true).value = 0x01 ∧ pack (adc8 0xFF 0x01 true).flags = 0x30 ∧
    (adc8 0xFF 0xFF true).value = 0xFF ∧ pack (adc8 0xFF 0xFF true).flags = 0x30 ∧
    (adc8 0x0F 0xF0 true).value = 0x00 ∧ pack (adc8 0x0F 0xF0 true).flags = 0xB0 ∧
    (adc8 0x7F 0x7F true).value = 0xFF ∧ pack (adc8 0x7F 0x7F true).flags = 0x20 ∧
    (adc8 0x3A 0xC6 false).value = 0x00 ∧ pack (adc8 0x3A 0xC6 false).flags = 0xB0 ∧
    (adc8 0x80 0x7F true).value = 0x00 ∧ pack (adc8 0x80 0x7F true).flags = 0xB0 := by decide

/-- V-SUB-1 to V-SUB-11. -/
theorem test_sub8 :
    (sub8 0x3E 0x3E).value = 0x00 ∧ pack (sub8 0x3E 0x3E).flags = 0xC0 ∧
    (sub8 0x3E 0x0F).value = 0x2F ∧ pack (sub8 0x3E 0x0F).flags = 0x60 ∧
    (sub8 0x3E 0x40).value = 0xFE ∧ pack (sub8 0x3E 0x40).flags = 0x50 ∧
    (sub8 0x00 0x01).value = 0xFF ∧ pack (sub8 0x00 0x01).flags = 0x70 ∧
    (sub8 0x10 0x01).value = 0x0F ∧ pack (sub8 0x10 0x01).flags = 0x60 ∧
    (sub8 0x00 0x00).value = 0x00 ∧ pack (sub8 0x00 0x00).flags = 0xC0 ∧
    (sub8 0x80 0x01).value = 0x7F ∧ pack (sub8 0x80 0x01).flags = 0x60 ∧
    (sub8 0xFF 0xFF).value = 0x00 ∧ pack (sub8 0xFF 0xFF).flags = 0xC0 ∧
    (sub8 0x00 0xFF).value = 0x01 ∧ pack (sub8 0x00 0xFF).flags = 0x70 ∧
    (sub8 0x5A 0x5A).value = 0x00 ∧ pack (sub8 0x5A 0x5A).flags = 0xC0 ∧
    (sub8 0x0F 0x10).value = 0xFF ∧ pack (sub8 0x0F 0x10).flags = 0x50 := by decide

/-- V-SBC-1 to V-SBC-12. -/
theorem test_sbc8 :
    (sbc8 0x3B 0x2A true).value = 0x10 ∧ pack (sbc8 0x3B 0x2A true).flags = 0x40 ∧
    (sbc8 0x3B 0x3A true).value = 0x00 ∧ pack (sbc8 0x3B 0x3A true).flags = 0xC0 ∧
    (sbc8 0x3B 0x4F true).value = 0xEB ∧ pack (sbc8 0x3B 0x4F true).flags = 0x70 ∧
    (sbc8 0x00 0x00 true).value = 0xFF ∧ pack (sbc8 0x00 0x00 true).flags = 0x70 ∧
    (sbc8 0x00 0xFF true).value = 0x00 ∧ pack (sbc8 0x00 0xFF true).flags = 0xF0 ∧
    (sbc8 0x10 0x0F true).value = 0x00 ∧ pack (sbc8 0x10 0x0F true).flags = 0xE0 ∧
    (sbc8 0x01 0x00 true).value = 0x00 ∧ pack (sbc8 0x01 0x00 true).flags = 0xC0 ∧
    (sbc8 0x00 0x0F true).value = 0xF0 ∧ pack (sbc8 0x00 0x0F true).flags = 0x70 ∧
    (sbc8 0x3E 0x0F false).value = 0x2F ∧ pack (sbc8 0x3E 0x0F false).flags = 0x60 ∧
    (sbc8 0x00 0x00 false).value = 0x00 ∧ pack (sbc8 0x00 0x00 false).flags = 0xC0 ∧
    (sbc8 0x10 0x00 true).value = 0x0F ∧ pack (sbc8 0x10 0x00 true).flags = 0x60 ∧
    (sbc8 0xFF 0xFF true).value = 0xFF ∧ pack (sbc8 0xFF 0xFF true).flags = 0x70 := by decide

/-- V-ADD16-1 to V-ADD16-12. -/
theorem test_add16 :
    (add16 0xFFFF 0xFFFF).value = 0xFFFE ∧ pack (add16 0xFFFF 0xFFFF).flags = 0x30 ∧
    (add16 0x00FF 0x0001).value = 0x0100 ∧ pack (add16 0x00FF 0x0001).flags = 0x20 ∧
    (add16 0x0FFF 0x0001).value = 0x1000 ∧ pack (add16 0x0FFF 0x0001).flags = 0x20 ∧
    (add16 0x0F00 0x0100).value = 0x1000 ∧ pack (add16 0x0F00 0x0100).flags = 0x00 ∧
    (add16 0x8000 0x8000).value = 0x0000 ∧ pack (add16 0x8000 0x8000).flags = 0x90 ∧
    (add16 0x0001 0xFFFF).value = 0x0000 ∧ pack (add16 0x0001 0xFFFF).flags = 0xB0 ∧
    (add16 0x0000 0x0000).value = 0x0000 ∧ pack (add16 0x0000 0x0000).flags = 0x80 ∧
    (add16 0x1234 0xFFF0).value = 0x1224 ∧ pack (add16 0x1234 0xFFF0).flags = 0x30 ∧
    (add16 0x8A23 0x0605).value = 0x9028 ∧ pack (add16 0x8A23 0x0605).flags = 0x00 ∧
    (add16 0x4000 0x4000).value = 0x8000 ∧ pack (add16 0x4000 0x4000).flags = 0x00 ∧
    (add16 0xFF00 0x0100).value = 0x0000 ∧ pack (add16 0xFF00 0x0100).flags = 0x90 ∧
    (add16 0x0080 0x0080).value = 0x0100 ∧ pack (add16 0x0080 0x0080).flags = 0x20 := by decide

/-- V-SUB16-1 to V-SUB16-4. -/
theorem test_sub16 :
    (sub16 0x0000 0x0001).value = 0xFFFF ∧ pack (sub16 0x0000 0x0001).flags = 0x70 ∧
    (sub16 0x0100 0x0001).value = 0x00FF ∧ pack (sub16 0x0100 0x0001).flags = 0x60 ∧
    (sub16 0x1234 0x1234).value = 0x0000 ∧ pack (sub16 0x1234 0x1234).flags = 0xC0 ∧
    (sub16 0x1000 0x0100).value = 0x0F00 ∧ pack (sub16 0x1000 0x0100).flags = 0x40 := by decide

/-- V-CP-1, V-CP-3 and V-CP-4: the flags of the rows of V-SUB. -/
theorem test_cp8 : pack (cp8 0x3E 0x3E) = 0xC0 ∧ pack (cp8 0x3E 0x40) = 0x50 ∧ pack (cp8 0x00 0x01) = 0x70 := by decide

/-! ## One tick of each executing instruction: V-TICK-1 to V-TICK-45 -/

/-- V-TICK-1: `ADD HL,BC`. -/
theorem test_addHlBc : tickOf 0x09 =
    some ({ launchRegs with h := 0x77, l := 0x03, f := 0x20, pc := 0x0101 }, some 8) := by decide

/-- V-TICK-2: `ADD HL,DE`. -/
theorem test_addHlDe : tickOf 0x19 =
    some ({ launchRegs with h := 0xB3, l := 0x90, f := 0x20, pc := 0x0101 }, some 8) := by decide

/-- V-TICK-3: `ADD HL,HL`. -/
theorem test_addHlHl : tickOf 0x29 =
    some ({ launchRegs with h := 0x25, l := 0xE8, f := 0x20, pc := 0x0101 }, some 8) := by decide

/-- V-TICK-4: `ADD HL,SP`. -/
theorem test_addHlSp : tickOf 0x39 =
    some ({ launchRegs with l := 0xE4, f := 0x30, pc := 0x0101 }, some 8) := by decide

/-- V-TICK-5: `ADD A,B`. -/
theorem test_addAB : tickOf 0x80 =
    some ({ launchRegs with a := 0x00, f := 0xB0, pc := 0x0101 }, some 4) := by decide

/-- V-TICK-6: `ADD A,C`. -/
theorem test_addAC : tickOf 0x81 =
    some ({ launchRegs with a := 0xAB, f := 0x20, pc := 0x0101 }, some 4) := by decide

/-- V-TICK-7: `ADD A,D`. -/
theorem test_addAD : tickOf 0x82 =
    some ({ launchRegs with a := 0x3C, f := 0x10, pc := 0x0101 }, some 4) := by decide

/-- V-TICK-8: `ADD A,E`. -/
theorem test_addAE : tickOf 0x83 =
    some ({ launchRegs with a := 0x38, f := 0x30, pc := 0x0101 }, some 4) := by decide

/-- V-TICK-9: `ADD A,H`. -/
theorem test_addAH : tickOf 0x84 =
    some ({ launchRegs with a := 0xAE, f := 0x00, pc := 0x0101 }, some 4) := by decide

/-- V-TICK-10: `ADD A,L`. -/
theorem test_addAL : tickOf 0x85 =
    some ({ launchRegs with a := 0x90, f := 0x30, pc := 0x0101 }, some 4) := by decide

/-- V-TICK-11: `ADD A,A`. -/
theorem test_addAA : tickOf 0x87 =
    some ({ launchRegs with a := 0x38, f := 0x30, pc := 0x0101 }, some 4) := by decide

/-- V-TICK-12: `ADC A,B`. -/
theorem test_adcAB : tickOf 0x88 =
    some ({ launchRegs with a := 0x01, f := 0x30, pc := 0x0101 }, some 4) := by decide

/-- V-TICK-13: `ADC A,C`. -/
theorem test_adcAC : tickOf 0x89 =
    some ({ launchRegs with a := 0xAC, f := 0x20, pc := 0x0101 }, some 4) := by decide

/-- V-TICK-14: `ADC A,D`. -/
theorem test_adcAD : tickOf 0x8A =
    some ({ launchRegs with a := 0x3D, f := 0x10, pc := 0x0101 }, some 4) := by decide

/-- V-TICK-15: `ADC A,E`. -/
theorem test_adcAE : tickOf 0x8B =
    some ({ launchRegs with a := 0x39, f := 0x30, pc := 0x0101 }, some 4) := by decide

/-- V-TICK-16: `ADC A,H`. -/
theorem test_adcAH : tickOf 0x8C =
    some ({ launchRegs with a := 0xAF, f := 0x00, pc := 0x0101 }, some 4) := by decide

/-- V-TICK-17: `ADC A,L`. -/
theorem test_adcAL : tickOf 0x8D =
    some ({ launchRegs with a := 0x91, f := 0x30, pc := 0x0101 }, some 4) := by decide

/-- V-TICK-18: `ADC A,A`. -/
theorem test_adcAA : tickOf 0x8F =
    some ({ launchRegs with a := 0x39, f := 0x30, pc := 0x0101 }, some 4) := by decide

/-- V-TICK-19: `SUB B`. -/
theorem test_subB : tickOf 0x90 =
    some ({ launchRegs with a := 0x38, f := 0x40, pc := 0x0101 }, some 4) := by decide

/-- V-TICK-20: `SUB C`. -/
theorem test_subC : tickOf 0x91 =
    some ({ launchRegs with a := 0x8D, f := 0x60, pc := 0x0101 }, some 4) := by decide

/-- V-TICK-21: `SUB D`. -/
theorem test_subD : tickOf 0x92 =
    some ({ launchRegs with a := 0xFC, f := 0x50, pc := 0x0101 }, some 4) := by decide

/-- V-TICK-22: `SUB E`. -/
theorem test_subE : tickOf 0x93 =
    some ({ launchRegs with a := 0x00, f := 0xC0, pc := 0x0101 }, some 4) := by decide

/-- V-TICK-23: `SUB H`. -/
theorem test_subH : tickOf 0x94 =
    some ({ launchRegs with a := 0x8A, f := 0x40, pc := 0x0101 }, some 4) := by decide

/-- V-TICK-24: `SUB L`. -/
theorem test_subL : tickOf 0x95 =
    some ({ launchRegs with a := 0xA8, f := 0x50, pc := 0x0101 }, some 4) := by decide

/-- V-TICK-25: `SUB A`. -/
theorem test_subA : tickOf 0x97 =
    some ({ launchRegs with a := 0x00, f := 0xC0, pc := 0x0101 }, some 4) := by decide

/-- V-TICK-26: `SBC A,B`. -/
theorem test_sbcAB : tickOf 0x98 =
    some ({ launchRegs with a := 0x37, f := 0x40, pc := 0x0101 }, some 4) := by decide

/-- V-TICK-27: `SBC A,C`. -/
theorem test_sbcAC : tickOf 0x99 =
    some ({ launchRegs with a := 0x8C, f := 0x60, pc := 0x0101 }, some 4) := by decide

/-- V-TICK-28: `SBC A,D`. -/
theorem test_sbcAD : tickOf 0x9A =
    some ({ launchRegs with a := 0xFB, f := 0x50, pc := 0x0101 }, some 4) := by decide

/-- V-TICK-29: `SBC A,E`. -/
theorem test_sbcAE : tickOf 0x9B =
    some ({ launchRegs with a := 0xFF, f := 0x70, pc := 0x0101 }, some 4) := by decide

/-- V-TICK-30: `SBC A,H`. -/
theorem test_sbcAH : tickOf 0x9C =
    some ({ launchRegs with a := 0x89, f := 0x40, pc := 0x0101 }, some 4) := by decide

/-- V-TICK-31: `SBC A,L`. -/
theorem test_sbcAL : tickOf 0x9D =
    some ({ launchRegs with a := 0xA7, f := 0x50, pc := 0x0101 }, some 4) := by decide

/-- V-TICK-32: `SBC A,A`. -/
theorem test_sbcAA : tickOf 0x9F =
    some ({ launchRegs with a := 0xFF, f := 0x70, pc := 0x0101 }, some 4) := by decide

/-- V-TICK-33: `CP B`. -/
theorem test_cpB : tickOf 0xB8 =
    some ({ launchRegs with f := 0x40, pc := 0x0101 }, some 4) := by decide

/-- V-TICK-34: `CP C`. -/
theorem test_cpC : tickOf 0xB9 =
    some ({ launchRegs with f := 0x60, pc := 0x0101 }, some 4) := by decide

/-- V-TICK-35: `CP D`. -/
theorem test_cpD : tickOf 0xBA =
    some ({ launchRegs with f := 0x50, pc := 0x0101 }, some 4) := by decide

/-- V-TICK-36: `CP E`. -/
theorem test_cpE : tickOf 0xBB =
    some ({ launchRegs with f := 0xC0, pc := 0x0101 }, some 4) := by decide

/-- V-TICK-37: `CP H`. -/
theorem test_cpH : tickOf 0xBC =
    some ({ launchRegs with f := 0x40, pc := 0x0101 }, some 4) := by decide

/-- V-TICK-38: `CP L`. -/
theorem test_cpL : tickOf 0xBD =
    some ({ launchRegs with f := 0x50, pc := 0x0101 }, some 4) := by decide

/-- V-TICK-39: `CP A`. -/
theorem test_cpA : tickOf 0xBF =
    some ({ launchRegs with f := 0xC0, pc := 0x0101 }, some 4) := by decide

/-- V-TICK-40: `ADD A,7B`. -/
theorem test_addAN : tickOf 0xC6 =
    some ({ launchRegs with a := 0x17, f := 0x30, pc := 0x0102 }, some 8) := by decide

/-- V-TICK-41: `ADC A,7B`. -/
theorem test_adcAN : tickOf 0xCE =
    some ({ launchRegs with a := 0x18, f := 0x30, pc := 0x0102 }, some 8) := by decide

/-- V-TICK-42: `SUB 7B`. -/
theorem test_subN : tickOf 0xD6 =
    some ({ launchRegs with a := 0x21, f := 0x40, pc := 0x0102 }, some 8) := by decide

/-- V-TICK-43: `SBC A,7B`. -/
theorem test_sbcAN : tickOf 0xDE =
    some ({ launchRegs with a := 0x20, f := 0x40, pc := 0x0102 }, some 8) := by decide

/-- V-TICK-44: `ADD SP,+7B`. -/
theorem test_addSpE : tickOf 0xE8 =
    some ({ launchRegs with sp := 0x006B, f := 0x30, pc := 0x0102 }, some 16) := by decide

/-- V-TICK-45: `CP 7B`. -/
theorem test_cpN : tickOf 0xFE =
    some ({ launchRegs with f := 0x40, pc := 0x0102 }, some 8) := by decide

/-! ## The signed immediate and the source's scenarios -/

/-- V-ADDSP-2: `e = -1` from `SP = 0001`. -/
theorem test_addSpE_minus_one :
    afterStep (bufferState { RegFile.reset with sp := 0x0001 } [0xE8, 0xFF]) =
      some ({ RegFile.reset with sp := 0x0000, f := 0xB0, pc := 0x0002 }, some 16) := by decide

/-- V-ADDSP-3: `e = -128` from `SP = 0100`. -/
theorem test_addSpE_most_negative :
    afterStep (bufferState { RegFile.reset with sp := 0x0100 } [0xE8, 0x80]) =
      some ({ RegFile.reset with sp := 0x0080, f := 0x10, pc := 0x0002 }, some 16) := by decide

/-- S-2: `ADD A,FF` with `A = 01`. -/
theorem test_scenario_2 :
    afterStep (bufferState { RegFile.reset with a := 0x01 } [0xC6, 0xFF]) =
      some ({ RegFile.reset with a := 0x00, f := 0xB0, pc := 0x0002 }, some 8) := by decide

/-- S-3: `ADD HL,HL` with `HL = FFFF`. -/
theorem test_scenario_3 :
    afterStep (bufferState { RegFile.reset with h := 0xFF, l := 0xFF } [0x29]) =
      some ({ RegFile.reset with h := 0xFF, l := 0xFE, f := 0x30, pc := 0x0001 }, some 8) := by decide

/-- V-ADC-5 as an instruction, the vector that separates conflict C1: `Z` is the final step's alone. -/
theorem test_adcAN_zero_flag_of_the_final_step :
    afterStep (bufferState { RegFile.reset with a := 0x00 } [0xCE, 0x01]) =
      some ({ RegFile.reset with a := 0x01, f := 0x00, pc := 0x0002 }, some 8) := by decide

/-- By hand from R20 and R86: the immediate of an opcode at `FFFF` is read at `0000`, and `PC` ends at `0001`. -/
theorem test_pc_wraps_inside_an_instruction :
    afterStep (stateAt 0xFFFF [0xC6, 0x04]) =
      some ({ launchRegs with a := 0xA0, f := 0x20, pc := 0x0001 }, some 8) := by decide

/-! ## Faults: V-FAULT-1 to V-FAULT-12 -/

/-- The faults. -/
theorem test_faults :
    faultOf (bufferState RegFile.reset []) = some (.failed (.outOfRange 0x0000)) ∧
    faultOf (bufferState RegFile.reset [0xC6]) = some (.failed (.outOfRange 0x0001)) ∧
    faultOf (bufferState { RegFile.reset with sp := 0x1234 } [0xE8]) = some (.failed (.outOfRange 0x0001)) ∧
    faultOf (bufferState RegFile.reset [0x00]) = some (.invalidOpcode 0x00) ∧
    faultOf (bufferState RegFile.reset [0xCB, 0x80]) = some (.invalidOpcode 0xCB) ∧
    faultOf (bufferState { RegFile.reset with pc := 0x0001 } [0x87]) = some (.failed (.outOfRange 0x0001)) ∧
    faultOf (bufferState RegFile.reset [0x76]) = some (.invalidOpcode 0x76) := by decide

/-- V-FAULT-4 to V-FAULT-8, the memory forms. -/
theorem test_memory_forms :
    faultOf (bufferState { RegFile.reset with a := 0x11 } [0x86]) = some (.invalidOperand (.memory .hl) .add8) ∧
    faultOf (bufferState { RegFile.reset with a := 0x11 } [0x8E]) = some (.invalidOperand (.memory .hl) .adc) ∧
    faultOf (bufferState { RegFile.reset with a := 0x11 } [0x96]) = some (.invalidOperand (.memory .hl) .sub) ∧
    faultOf (bufferState { RegFile.reset with a := 0x11 } [0x9E]) = some (.invalidOperand (.memory .hl) .sbc) ∧
    faultOf (bufferState { RegFile.reset with a := 0x11 } [0xBE]) = some (.invalidOperand (.memory .hl) .cp) := by decide

/-- The `PC after` column of V-FAULT, R201's record of what a failed tick leaves. It is tested here and stated nowhere
(spec decision D8). -/
theorem test_left_by_a_failed_tick :
    (tick (bufferState RegFile.reset [])).left.regs = RegFile.reset ∧
    (tick (bufferState RegFile.reset [0xC6])).left.regs = { RegFile.reset with pc := 0x0001 } ∧
    (tick (bufferState { RegFile.reset with a := 0x11 } [0x86])).left.regs =
      { RegFile.reset with a := 0x11, pc := 0x0001 } ∧
    (tick (bufferState RegFile.reset [0xCB, 0x80])).left.regs = { RegFile.reset with pc := 0x0001 } := by decide

/-- P4: a completed tick, then a fault; the run's record (R226). -/
theorem test_run_that_ends_in_a_fault :
    let r := runTicks 3 (bufferState { RegFile.reset with a := 0x01, b := 0x02, l := 0x02 } [0x80, 0x86, 0x80])
    r.counts = [4] ∧ r.last.regs.a = 0x03 ∧ r.ending = .fault (.invalidOperand (.memory .hl) .add8) := by decide

/-! ## Memory and the host's operations -/

/-- The canonical form refuses a repeated address, a falling address and one past the address space. -/
theorem test_memory_wf :
    Memory.wf [(0x0000, 0x01), (0xFFFF, 0x02)] = true ∧ Memory.wf [(0x0005, 0x01), (0x0005, 0x02)] = false ∧
    Memory.wf [(0x0005, 0x01), (0x0004, 0x02)] = false ∧ Memory.wf [(0x10000, 0x01)] = false := by decide

/-- The host places, replaces and takes away a byte. -/
theorem test_memory_put_remove :
    Memory.put [(0x0001, 0x11), (0x0003, 0x33)] 0x0002 0x22 = [(0x0001, 0x11), (0x0002, 0x22), (0x0003, 0x33)] ∧
    Memory.put [(0x0001, 0x11)] 0x0001 0x99 = [(0x0001, 0x99)] ∧
    Memory.remove [(0x0001, 0x11), (0x0003, 0x33)] 0x0001 = [(0x0003, 0x33)] := by decide

/-- Reset of a running core clears the registers and keeps the memory (R220). -/
theorem test_resetCore : (stateAt 0x0100 [0x80]).resetCore = { State.reset with mem := [(0x0100, 0x80)] } := by decide

/-! ## Witnesses: for each obligation with hypotheses, values that meet them, every clause at a boundary -/

theorem witness_FlagsStandInTheUpperNibble : (0xF0 : Byte) &&& 0x0F = 0 := by decide

theorem witness_LaunchAcceptsExactlyTheRegisterFilesWithAZeroLowNibble :
    ({ launchRegs with f := 0xF0 }).f.toNat % 16 = 0 ∧ ({ launchRegs with f := 0x01 }).f.toNat % 16 ≠ 0 ∧
    ({ launchRegs with f := 0x0F }).f.toNat % 16 ≠ 0 := by decide

theorem witness_FetchReadsThenAdvances :
    (stateAt 0xFFFF [0x80]).mem.byteAt (stateAt 0xFFFF [0x80]).regs.pc = some 0x80 ∧
    (stateAt 0xFFFF []).mem.byteAt (stateAt 0xFFFF []).regs.pc = none := by decide

theorem witness_UnassignedBytesAreInvalidOpcodes :
    (stateAt 0xFFFF [0xFF]).mem.byteAt (stateAt 0xFFFF [0xFF]).regs.pc = some 0xFF ∧ unassigned 0xFF = true ∧
    unassigned 0x00 = true ∧ unassigned 0xFD = true ∧ unassigned 0xFE = false := by decide

theorem witness_RegistrationOrderCannotBeObserved :
    Family.add8 ≠ Family.cp ∧ familyOrder.reverse.Perm familyOrder ∧ familyOrder.reverse ≠ familyOrder :=
  ⟨by decide, List.reverse_perm _, by decide⟩

theorem witness_DecodeReadsBackWhatEncodeWrote :
    ({ instr := .addSpE, trailing := some 0x80 } : FullInstr).wellFormed = true ∧
    ({ instr := .subMemHl, trailing := none } : FullInstr).wellFormed = true := by decide

theorem witness_EncodeWritesBackWhatDecodeRead :
    decodeBytes [0xE8, 0x80, 0xFF] = .ok ({ instr := .addSpE, trailing := some 0x80 }, [0xFF]) ∧
    decodeBytes [0x96] = .ok ({ instr := .subMemHl, trailing := none }, []) := ⟨rfl, rfl⟩

theorem witness_DecodedValuesAreWellFormed : decode 0x09 = .ok .addHlBc ∧ decode 0xFE = .ok .cpN := ⟨rfl, rfl⟩

theorem witness_StepRunsTheDecodedInstruction :
    (stateAt 0xFFFF [0x8E]).mem.byteAt (stateAt 0xFFFF [0x8E]).regs.pc = some 0x8E ∧ decode 0x8E = .ok .adcAMemHl :=
  ⟨by decide, rfl⟩

theorem witness_OperandKindsAreAcceptedAsTheMatrixSays :
    accepts .add16 (.register8 .a) = false ∧ accepts .cp (.memory .hl) = false ∧ accepts .add8 .imm16 = false ∧
    accepts .addsp .immSigned8 = true ∧ accepts .add16 (.register16 .sp) = true ∧ accepts .sbc .imm8 = true := by decide

theorem witness_ErrorsComeInTheirOrder :
    (∃ s e, step s = .fault e ∧ s.mem.byteAt s.regs.pc = none) ∧
    (∃ s, step s = .fault (.invalidOpcode 0xFF)) ∧
    (∃ s, step s = .fault (.invalidOperand (.memory .hl) .cp)) ∧
    (∃ s, step s = .fault (.failed (.outOfRange 0x0000)) ∧ s.regs.pc = 0xFFFF) :=
  ⟨⟨stateAt 0x0000 [], _, rfl, rfl⟩, ⟨stateAt 0x0000 [0xFF], rfl⟩, ⟨stateAt 0x0000 [0xBE], rfl⟩,
   ⟨stateAt 0xFFFF [0xE8], rfl, rfl⟩⟩

theorem witness_TickCompletesExactlyWhenNothingFails :
    (∃ t, step (stateAt 0xFFFF [0xE8, 0x80]) = .next t) ∧ (∃ e, step (stateAt 0xFFFF [0xE8]) = .fault e) :=
  ⟨⟨_, rfl⟩, ⟨_, rfl⟩⟩

theorem witness_MemoryFormsAlwaysFault :
    ((0xBE, .cpMemHl, .cp) : Byte × Instr × Family) ∈ memoryForms ∧
    (stateAt 0xFFFF [0xBE]).mem.byteAt (stateAt 0xFFFF [0xBE]).regs.pc = some 0xBE := by decide

theorem witness_PcAdvancesByTheLength :
    (∃ t, step (stateAt 0xFFFF [0x80]) = .next t ∧ t.regs.pc = 0x0000) ∧
    (∃ t, step (stateAt 0xFFFF [0xC6, 0x00]) = .next t ∧ t.regs.pc = 0x0001) := ⟨⟨_, rfl, rfl⟩, ⟨_, rfl, rfl⟩⟩

theorem witness_CompletedTickReturnsItsStaticCount :
    (∃ t, step (stateAt 0x0000 [0xE8, 0x00]) = .next t) ∧ (∃ t, step (stateAt 0x0000 [0x39]) = .next t) ∧
    (∃ t, step (stateAt 0x0000 [0xFE, 0x00]) = .next t) ∧ (∃ t, step (stateAt 0x0000 [0xBF]) = .next t) :=
  ⟨⟨_, rfl⟩, ⟨_, rfl⟩, ⟨_, rfl⟩, ⟨_, rfl⟩⟩

theorem witness_ATickReadsItsOwnBytesOnly :
    (∃ (s : State) (op : Byte) (i : Instr), s.mem.byteAt s.regs.pc = some op ∧ decode op = .ok i ∧
      i.operand.hasTrailing = true) ∧
    ¬ ∃ op i, (stateAt 0x0000 [0x80]).mem.byteAt (stateAt 0x0000 [0x80]).regs.pc = some op ∧ decode op = .ok i ∧
      i.operand.hasTrailing = true := by
  refine ⟨⟨stateAt 0xFFFF [0xE8], 0xE8, .addSpE, rfl, rfl, rfl⟩, ?_⟩
  rintro ⟨op, i, h, hd, ht⟩
  obtain rfl : (0x80 : Byte) = op := Option.some.inj h
  obtain rfl : Instr.addAB = i := Except.ok.inj hd
  exact absurd ht (by decide)

theorem witness_StepNeverWritesMemory : ∃ t, step (stateAt 0xFFFF [0x80]) = .next t := ⟨_, rfl⟩

theorem witness_OutcomeDependsOnTheInstructionBytesOnly :
    let s := stateAt 0xFFFF [0xE8, 0x05]
    let m := Memory.put s.mem 0x1234 0xAA
    m ≠ s.mem ∧ m.byteAt s.regs.pc = s.mem.byteAt s.regs.pc ∧
    m.byteAt (s.regs.pc + 1) = s.mem.byteAt (s.regs.pc + 1) := by decide

theorem witness_OldFlagsAreAnInputThroughCarryOnly :
    Instr.family .cpB ≠ .adc ∧ Instr.family .cpB ≠ .sbc ∧ (unpack 0xF0).c = (unpack launchRegs.f).c := by decide

theorem witness_StepKeepsTheInvariant :
    (stateAt 0xFFFF [0xC6, 0xFF]).Inv ∧ ∃ t, step (stateAt 0xFFFF [0xC6, 0xFF]) = .next t :=
  ⟨by unfold State.Inv; decide, _, rfl⟩

theorem witness_OnlyAccumulatorFlagsHlSpAndPcEverChange :
    (∃ t, step (stateAt 0x0000 [0x09]) = .next t) ∧ (∃ t, step (stateAt 0x0000 [0xE8, 0x01]) = .next t) ∧
    (∃ t, step (stateAt 0x0000 [0xB8]) = .next t) ∧ (∃ t, step (stateAt 0x0000 [0x80]) = .next t) :=
  ⟨⟨_, rfl⟩, ⟨_, rfl⟩, ⟨_, rfl⟩, ⟨_, rfl⟩⟩

theorem witness_RunsAreStraightLine :
    SafeFor 2 (stateAt 0xFFFE [0x80, 0xC6, 0x01]) ∧ ¬ SafeFor 3 (stateAt 0xFFFE [0x80, 0xC6, 0x01]) := by
  unfold SafeFor; decide

/-- Each clause after no tick and after one: an unreadable byte, an unassigned one, a memory form, a missing immediate. -/
theorem witness_RunsEndAtTheFirstFailingTick :
    SafeFor 0 (stateAt 0xFFFF []) ∧ SafeFor 1 (stateAt 0xFFFF [0x80]) ∧
    (let u := (runTicks 1 (stateAt 0xFFFF [0x80])).last;
      u.mem.byteAt u.regs.pc = none) ∧
    (let u := (runTicks 1 (stateAt 0xFFFF [0x80, 0xFF])).last;
      u.mem.byteAt u.regs.pc = some 0xFF ∧ unassigned 0xFF = true) ∧
    (let u := (runTicks 1 (stateAt 0xFFFF [0x80, 0xBE])).last;
      u.mem.byteAt u.regs.pc = some 0xBE ∧ ((0xBE, .cpMemHl, .cp) : Byte × Instr × Family) ∈ memoryForms) ∧
    (let u := (runTicks 1 (stateAt 0xFFFE [0x80, 0xE8])).last;
      u.mem.byteAt u.regs.pc = some 0xE8 ∧ u.mem.byteAt (u.regs.pc + 1) = none ∧
      Instr.operand .addSpE = .immSigned8) := by
  unfold SafeFor; decide

/-- The address after `FFFF` is unreadable, and the run until the first fault is that of one tick and the failed one. -/
theorem witness_ARunUntilTheFirstFaultEndsBeforeAnUnreadableAddress :
    (stateAt 0xFFFF [0x80]).mem.byteAt 0x0000 = none ∧
    IsRun .untilFirstFault (stateAt 0xFFFF [0x80]) (runTicks 2 (stateAt 0xFFFF [0x80])) ∧
    (runTicks 2 (stateAt 0xFFFF [0x80])).ending = .fault (.failed (.outOfRange 0x0000)) ∧
    (runTicks 2 (stateAt 0xFFFF [0x80])).counts = [4] :=
  ⟨by decide, ⟨2, .failed (.outOfRange 0x0000), rfl, by decide⟩, by decide, by decide⟩

/-- `ADD A,B` at `n` consecutive addresses from `k` on. -/
def fillFrom (k : Nat) : Nat → Memory
  | 0 => []
  | n + 1 => (k, 0x80) :: fillFrom (k + 1) n

theorem fillFrom_lookup (n k a : Nat) (hk : k ≤ a) (ha : a < k + n) : (fillFrom k n).lookup a = some 0x80 := by
  induction n generalizing k with
  | zero => omega
  | succ n ih =>
    rw [fillFrom, List.lookup_cons]
    split
    · rfl
    · rename_i h
      exact ih (k + 1) (by have : a ≠ k := by simpa using h
                           omega) (by omega)

/-- A memory full of `ADD A,B`: every address answers with an instruction that is no memory form. -/
theorem witness_ARunThatOutlastsTheAddressSpaceNeverFaults :
    ∀ a : Addr, ∃ op i, ({ stateAt 0xFFFF [] with mem := fillFrom 0 65536 } : State).mem.byteAt a = some op ∧
      decode op = .ok i ∧ i.operand ≠ .memory .hl :=
  fun a => ⟨0x80, .addAB, fillFrom_lookup _ _ _ (Nat.zero_le _) (by have := a.isLt; omega), rfl, by decide⟩

theorem witness_BufferAnswersBelowItsLength :
    ([] : List Byte).length ≤ 65536 ∧ ([0x80, 0x86] : List Byte).length ≤ 65536 ∧
    (bufferState RegFile.reset [0x80, 0x86]).mem = Memory.ofBuffer [0x80, 0x86] ∧
    ([0x80, 0x86] : List Byte).length ≤ (0x0002 : Addr).toNat := by decide

theorem witness_ImmediatesBecomeValues :
    (stateAt 0xFFFF [0x80]).mem.byteAt (stateAt 0xFFFF [0x80]).regs.pc = some 0x80 := by decide

/-- The clauses of `Handler8`: a readable and an unreadable immediate at the top of memory, and a kind that is neither
a register nor `Imm8`. -/
theorem witness_Handler8 :
    (stateAt 0xFFFF [0xFF]).mem.byteAt (stateAt 0xFFFF [0xFF]).regs.pc = some 0xFF ∧
    (stateAt 0xFFFF []).mem.byteAt (stateAt 0xFFFF []).regs.pc = none ∧
    (∀ w, Operand.immSigned8 ≠ .register8 w) ∧ Operand.immSigned8 ≠ .imm8 :=
  ⟨by decide, by decide, nofun, nofun⟩

theorem witness_AddHandlerFollowsItsRule :
    (handle .add8 .imm8 (stateAt 0xFFFF [0x64])).answer = .ok () ∧
    (handle .add8 (.memory .hl) (stateAt 0xFFFF [])).answer = .error (.invalidOperand (.memory .hl) .add8) := ⟨rfl, rfl⟩

theorem witness_AdcHandlerFollowsItsRule :
    (handle .adc .imm8 (stateAt 0xFFFF [0x64])).answer = .ok () ∧
    (unpack (bufferState RegFile.reset []).regs.f).c = false ∧ accepts .adc .imm8 = true :=
  ⟨rfl, by decide, by decide⟩

theorem witness_SubHandlerFollowsItsRule :
    (handle .sub .imm8 (stateAt 0xFFFF [0x64])).answer = .ok () ∧
    (handle .sub .imm16 (stateAt 0xFFFF [])).answer = .error (.invalidOperand .imm16 .sub) := ⟨rfl, rfl⟩

theorem witness_SbcHandlerFollowsItsRule :
    (handle .sbc .imm8 (stateAt 0xFFFF [0x64])).answer = .ok () ∧
    (unpack (bufferState RegFile.reset []).regs.f).c = false ∧ accepts .sbc (.register8 .a) = true :=
  ⟨rfl, by decide, by decide⟩

theorem witness_CpHandlerFollowsItsRule :
    (handle .cp .imm8 (stateAt 0xFFFF [0x64])).answer = .ok () ∧
    (handle .cp (.register16 .hl) (stateAt 0xFFFF [])).answer = .error (.invalidOperand (.register16 .hl) .cp) := ⟨rfl, rfl⟩

theorem witness_AddHlHandlerFollowsItsRule :
    (∀ p, Operand.register8 .h ≠ .register16 p) ∧ Instr.addHlSp ∈ addHlForms := ⟨nofun, by decide⟩

theorem witness_AddSpHandlerFollowsItsRule :
    (stateAt 0xFFFF [0x80]).mem.byteAt (stateAt 0xFFFF [0x80]).regs.pc = some 0x80 ∧
    (stateAt 0xFFFF []).mem.byteAt (stateAt 0xFFFF []).regs.pc = none ∧ Operand.imm8 ≠ .immSigned8 := by decide

/-- The opcode bytes of the one-byte instructions that execute. -/
def registerBytes : List Byte :=

  [0x09, 0x19, 0x29, 0x39, 0x80, 0x81, 0x82, 0x83, 0x84, 0x85, 0x87, 0x88, 0x89] ++
  [0x8A, 0x8B, 0x8C, 0x8D, 0x8F, 0x90, 0x91, 0x92, 0x93, 0x94, 0x95, 0x97, 0x98] ++
  [0x99, 0x9A, 0x9B, 0x9C, 0x9D, 0x9F, 0xB8, 0xB9, 0xBA, 0xBB, 0xBC, 0xBD, 0xBF]

/-- The opcode bytes of the two-byte instructions. -/
def immediateBytes : List Byte := [0xC6, 0xCE, 0xD6, 0xDE, 0xE8, 0xFE]

/-- The clauses of every `RegisterForm` of AddInstructionsComplete, AdcInstructionsComplete, SubInstructionsComplete,
SbcInstructionsComplete, CpInstructionsComplete and AddHlInstructionsComplete: for each opcode byte a state at the top
of memory that fetches it; and one that cannot fetch. -/
theorem witness_RegisterForm :
    (∀ op ∈ registerBytes, (stateAt 0xFFFF [op]).mem.byteAt (stateAt 0xFFFF [op]).regs.pc = some op) ∧
    (stateAt 0xFFFF []).mem.byteAt (stateAt 0xFFFF []).regs.pc = none ∧ registerBytes.length = 39 := by decide

/-- The clauses of every `ImmediateForm` of the completion statements, AddSpInstructionCompletes among them: for each
opcode byte a state that reads the opcode at `FFFF` and the immediate at `0000`; one without the immediate; one that
reads nothing. -/
theorem witness_ImmediateForm :
    (∀ op ∈ immediateBytes,
      (stateAt 0xFFFF [op, 0x80]).mem.byteAt (stateAt 0xFFFF [op, 0x80]).regs.pc = some op ∧
      (stateAt 0xFFFF [op, 0x80]).mem.byteAt ((stateAt 0xFFFF [op, 0x80]).regs.pc + 1) = some 0x80 ∧
      (stateAt 0xFFFF [op]).mem.byteAt (stateAt 0xFFFF [op]).regs.pc = some op ∧
      (stateAt 0xFFFF [op]).mem.byteAt ((stateAt 0xFFFF [op]).regs.pc + 1) = none) ∧
    (stateAt 0xFFFF []).mem.byteAt (stateAt 0xFFFF []).regs.pc = none := by decide

/-- Whether `exec` gives a next state. -/
def completes (i : Instr) (s : State) : Bool :=
  match exec i s with
  | .next _ => true
  | .fault _ => false
  | .refused _ => false

/-- `exec` gives a next state for every form that the four frame statements name. -/
theorem witness_AccumulatorFormsChangeOnlyAFPcAndCount :
    ∀ i ∈ accumulatorForms, completes i (stateAt 0xFFFF [0x64]) = true := by decide

theorem witness_CompareFormsChangeOnlyFPcAndCount : ∀ i ∈ compareForms, completes i (stateAt 0xFFFF [0x64]) = true := by decide

theorem witness_AddHlFormsChangeOnlyHlFPcAndCount : ∀ i ∈ addHlForms, completes i (stateAt 0xFFFF []) = true := by decide

theorem witness_AddSpChangesOnlySpFPcAndCount : completes .addSpE (stateAt 0xFFFF [0x80]) = true := by decide

end Sys2Proof.Tests
end

section
/-! PROOFS. What one tick can do, said once for every instruction: the operand step of `handle`, then `exec`, then
`step`. The statements of spec/00_scope.md about a tick and about runs are derived from it. -/

namespace Sys2Proof.Proofs
open Sys2Proof Sys2Proof.Machine

/-! ## The operand step -/

/-- An operand that its handler resolves: no `Memory(HL)` (R97), and the immediate byte, if there is one, answers at
`pc` (R31). -/
def OperandReady (o : Operand) (m : Memory) (pc : Word) : Prop :=
  o ≠ .memory .hl ∧ (o.hasTrailing = true → ∃ n, m.byteAt pc = some n)

/-- `PC` after the operand step: past the immediate byte, if there is one. -/
def pcAfterOperand (o : Operand) (pc : Word) : Word := if o.hasTrailing then nextPc pc else pc

/-- A write-back after the operand step: neither the memory nor `PC` changes. -/
def KeepsMemPc {α : Type} (write : α → State → State) : Prop :=
  ∀ v s, (write v s).mem = s.mem ∧ (write v s).regs.pc = s.regs.pc

/-- The operand kinds of R55, by family. -/
theorem operand_of_assigns {fam : Family} {o : Operand} (h : fam.assigns o = true) :
    (fam ≠ .add16 ∧ fam ≠ .addsp ∧ ((∃ w, o = .register8 w) ∨ o = .imm8 ∨ o = .memory .hl)) ∨
    (fam = .add16 ∧ ∃ p, o = .register16 p) ∨ (fam = .addsp ∧ o = .immSigned8) := by
  cases fam with
  | add8 | adc | sub | sbc | cp =>
    refine .inl ⟨nofun, nofun, ?_⟩
    cases o with
    | register8 w => exact .inl ⟨w, rfl⟩
    | imm8 => exact .inr (.inl rfl)
    | memory mode => exact .inr (.inr rfl)
    | register16 | imm16 | immSigned8 => cases h
  | add16 =>
    cases o with
    | register16 p => exact .inr (.inl ⟨rfl, p, rfl⟩)
    | register8 | imm8 | imm16 | immSigned8 | memory => cases h
  | addsp =>
    cases o with
    | immSigned8 => exact .inr (.inr ⟨rfl, rfl⟩)
    | register8 | register16 | imm8 | imm16 | memory => cases h

theorem assigns_family_operand (i : Instr) : i.family.assigns i.operand = true := by cases i <;> rfl

/-- `Memory(HL)` is refused by every family before anything is read (R97, R99). -/
theorem handle_memory (fam : Family) (s : State) :
    handle fam (.memory .hl) s = .raised (.invalidOperand (.memory .hl) fam) s [] := by
  cases fam <;> rfl

/-- An 8-bit family resolves its operand and then writes `A` and `F` at most. -/
theorem handle_eq_resolve8 {fam : Family} (h16 : fam ≠ .add16) (hsp : fam ≠ .addsp) :
    ∃ write : Byte → State → State, KeepsMemPc write ∧
      ∀ o s, handle fam o s = (resolve8 o fam s).andThen fun v s1 => .done () (write v s1) [] := by
  cases fam with
  | add16 => exact absurd rfl h16
  | addsp => exact absurd rfl hsp
  | add8 | adc | sub | sbc | cp =>
    refine ⟨_, ?_, fun _ _ => rfl⟩
    exact fun _ _ => ⟨rfl, rfl⟩

/-- `ADD SP,e` resolves its signed immediate and then writes `SP` and `F`. -/
theorem handle_addsp_eq_resolveS8 :
    ∃ write : Word → State → State, KeepsMemPc write ∧
      ∀ o s, handle .addsp o s = (resolveS8 o .addsp s).andThen fun v s1 => .done () (write v s1) [] := by
  refine ⟨_, ?_, fun _ _ => rfl⟩
  exact fun _ _ => ⟨rfl, rfl⟩

/-- Everything a handler can do on an operand kind that the tables give its family. -/
theorem handle_cases {fam : Family} {o : Operand} (h : fam.assigns o = true) (s : State) :
    (o = .memory .hl ∧ handle fam o s = .raised (.invalidOperand o fam) s []) ∨
    (o.hasTrailing = true ∧ s.mem.byteAt s.regs.pc = none ∧
      handle fam o s = .raised (.failed (.outOfRange s.regs.pc)) s [s.regs.pc]) ∨
    (OperandReady o s.mem s.regs.pc ∧ ∃ t rs, handle fam o s = .done () t rs ∧
      t.mem = s.mem ∧ t.regs.pc = pcAfterOperand o s.regs.pc) := by
  obtain ⟨h16, hsp, hkind⟩ | ⟨rfl, p, rfl⟩ | ⟨rfl, rfl⟩ := operand_of_assigns h
  · obtain ⟨write, hwrite, hhandle⟩ := handle_eq_resolve8 h16 hsp
    obtain ⟨w, rfl⟩ | rfl | rfl := hkind
    · exact .inr (.inr ⟨by simp [OperandReady, Operand.hasTrailing], write (s.reg8 w) s, [],
        by simp [hhandle], hwrite _ _⟩)
    · cases hn : s.mem.byteAt s.regs.pc with
      | none => exact .inr (.inl ⟨rfl, rfl, by simp [hhandle, fetch8_of_none hn]⟩)
      | some n =>
        exact .inr (.inr ⟨by simp [OperandReady, hn], write n s.advancePc, [s.regs.pc],
          by simp [hhandle, fetch8_of_some hn], hwrite _ _⟩)
    · exact .inl ⟨rfl, handle_memory fam s⟩
  · exact .inr (.inr ⟨by simp [OperandReady, Operand.hasTrailing], _, _, rfl, rfl, rfl⟩)
  · obtain ⟨write, hwrite, hhandle⟩ := handle_addsp_eq_resolveS8
    cases hn : s.mem.byteAt s.regs.pc with
    | none => exact .inr (.inl ⟨rfl, rfl, by simp [hhandle, resolveS8_of_none _ hn]⟩)
    | some n =>
      exact .inr (.inr ⟨by simp [OperandReady, hn], write (sext16 n) s.advancePc, [s.regs.pc],
        by simp [hhandle, resolveS8_of_some _ hn], hwrite _ _⟩)

/-! ## One tick -/

theorem step_of_fetchDecode_done {s s1 : State} {i : Instr} {rs : List Addr} (h : fetchDecode s = .done i s1 rs) :
    step s = (handle i.family i.operand s1).outcome i.cycles := by
  simp only [step, h, exec_eq_handle]

theorem step_of_fetchDecode_raised {s s1 : State} {e : Fault} {rs : List Addr}
    (h : fetchDecode s = .raised e s1 rs) : step s = .fault e := by
  simp only [step, h]

/-- `PC` after the opcode fetch and the operand step is past the whole instruction (R102). -/
theorem pcAfterOperand_nextPc (i : Instr) (pc : Word) :
    pcAfterOperand i.operand (nextPc pc) = pc + BitVec.ofNat 16 i.length := by
  unfold pcAfterOperand Instr.length nextPc
  split
  · exact BitVec.add_assoc pc 1 1
  · rfl

/-- Everything a tick can do: the four errors in the order of R200, or the completed tick. -/
theorem step_cases (s : State) :
    (s.mem.byteAt s.regs.pc = none ∧ step s = .fault (.failed (.outOfRange s.regs.pc))) ∨
    (∃ op, s.mem.byteAt s.regs.pc = some op ∧ decode op = .error (.invalidOpcode op) ∧
      step s = .fault (.invalidOpcode op)) ∨
    (∃ op i, s.mem.byteAt s.regs.pc = some op ∧ decode op = .ok i ∧
      ((i.operand = .memory .hl ∧ step s = .fault (.invalidOperand (.memory .hl) i.family)) ∨
       (i.operand.hasTrailing = true ∧ s.mem.byteAt (s.regs.pc + 1) = none ∧
          step s = .fault (.failed (.outOfRange (s.regs.pc + 1)))) ∨
       (OperandReady i.operand s.mem (s.regs.pc + 1) ∧ ∃ t, step s = .next t ∧ t.mem = s.mem ∧
          t.regs.pc = s.regs.pc + BitVec.ofNat 16 i.length ∧ t.lastCycles = some i.cycles))) := by
  obtain ⟨hpc, hf⟩ | ⟨op, hpc, hd, hf⟩ | ⟨op, i, hpc, hd, hf⟩ := fetchDecode_cases s
  · exact .inl ⟨hpc, step_of_fetchDecode_raised hf⟩
  · exact .inr (.inl ⟨op, hpc, hd, step_of_fetchDecode_raised hf⟩)
  · refine .inr (.inr ⟨op, i, hpc, hd, ?_⟩)
    rw [step_of_fetchDecode_done hf]
    obtain ⟨ho, hh⟩ | ⟨ho, hn, hh⟩ | ⟨hready, t, rs, hh, hmem, ht⟩ :=
      handle_cases (assigns_family_operand i) s.advancePc
    · exact .inl ⟨ho, by rw [hh, ho]; rfl⟩
    · exact .inr (.inl ⟨ho, hn, by rw [hh]; rfl⟩)
    · exact .inr (.inr ⟨hready, t.setCycles i.cycles, by rw [hh]; rfl, hmem,
        ht.trans (pcAfterOperand_nextPc i _), rfl⟩)

/-- The bytes at `pc` are an instruction that a tick there completes. -/
def Executes (m : Memory) (pc : Word) : Prop :=
  ∃ op i, m.byteAt pc = some op ∧ decode op = .ok i ∧ OperandReady i.operand m (pc + 1)

/-- What a completed tick did: it ran the instruction at `PC`, kept the memory, moved `PC` past the instruction and
recorded the static count. -/
theorem step_next {s t : State} (h : step s = .next t) :
    ∃ op i, s.mem.byteAt s.regs.pc = some op ∧ decode op = .ok i ∧ OperandReady i.operand s.mem (s.regs.pc + 1) ∧
      t.mem = s.mem ∧ t.regs.pc = s.regs.pc + BitVec.ofNat 16 i.length ∧ t.lastCycles = some i.cycles := by
  obtain ⟨-, hf⟩ | ⟨op, -, -, hf⟩ | ⟨op, i, hpc, hd, ⟨-, hf⟩ | ⟨-, -, hf⟩ | ⟨hready, u, hu, hkept⟩⟩ := step_cases s
  · cases h.symm.trans hf
  · cases h.symm.trans hf
  · cases h.symm.trans hf
  · cases h.symm.trans hf
  · cases h.symm.trans hu
    exact ⟨op, i, hpc, hd, hready, hkept⟩

theorem step_next_mem {s t : State} (h : step s = .next t) : t.mem = s.mem := by
  obtain ⟨_, _, _, _, _, hmem, _⟩ := step_next h
  exact hmem

theorem executes_of_step_next {s t : State} (h : step s = .next t) : Executes s.mem s.regs.pc := by
  obtain ⟨op, i, hpc, hd, hready, _⟩ := step_next h
  exact ⟨op, i, hpc, hd, hready⟩

theorem step_next_of_executes {s : State} (h : Executes s.mem s.regs.pc) : ∃ t, step s = .next t := by
  obtain ⟨op, i, hpc, hd, hop, hbyte⟩ := h
  obtain ⟨hnone, -⟩ | ⟨op', hpc', hd', -⟩ | ⟨op', i', hpc', hd', hcase⟩ := step_cases s
  · cases hpc.symm.trans hnone
  · cases hpc.symm.trans hpc'
    cases hd.symm.trans hd'
  · cases hpc.symm.trans hpc'
    cases hd.symm.trans hd'
    obtain ⟨ho, -⟩ | ⟨ho, hnone, -⟩ | ⟨-, t, ht, -⟩ := hcase
    · exact absurd ho hop
    · obtain ⟨n, hn⟩ := hbyte ho
      cases hn.symm.trans hnone
    · exact ⟨t, ht⟩

/-- A tick answers a next state or a fault, never a refusal (R7). -/
theorem step_next_or_fault (s : State) : (∃ t, step s = .next t) ∨ ∃ e, step s = .fault e := by
  obtain ⟨-, hf⟩ | ⟨_, -, -, hf⟩ | ⟨_, _, -, -, ⟨-, hf⟩ | ⟨-, -, hf⟩ | ⟨-, t, ht, -⟩⟩ := step_cases s
  · exact .inr ⟨_, hf⟩
  · exact .inr ⟨_, hf⟩
  · exact .inr ⟨_, hf⟩
  · exact .inr ⟨_, hf⟩
  · exact .inl ⟨t, ht⟩

/-- Settles O22: the two directions are the completed case of `step_cases` and the exclusion of its four errors. -/
theorem tickCompletesExactlyWhenNothingFails : Obligations.TickCompletesExactlyWhenNothingFails :=
  ⟨fun _ => ⟨fun ⟨_, h⟩ => executes_of_step_next h, step_next_of_executes⟩, step_next_or_fault⟩

end Sys2Proof.Proofs
end

section
/-! PROOFS. The recorded count is no input of a tick (R8): every part of a tick commutes with replacing it. -/

namespace Sys2Proof.Proofs
open Sys2Proof Sys2Proof.Machine

/-- The same part of a tick, with an update made to the state it leaves. -/
def mapLeft {α : Type} (f : State → State) : Ran α → Ran α
  | .done v s rs => .done v (f s) rs
  | .raised e s rs => .raised e (f s) rs

/-- The state with another count recorded. -/
def withCount (c : Option Byte) (s : State) : State := { s with lastCycles := c }

theorem afterReads_mapLeft {α : Type} (f : State → State) (rs : List Addr) (r : Ran α) :
    (mapLeft f r).afterReads rs = mapLeft f (r.afterReads rs) := by
  cases r <;> rfl

/-- An update that commutes with the second part passes through the sequence. -/
theorem andThen_mapLeft {α β : Type} {f : State → State} {next : α → State → Ran β}
    (h : ∀ v s, next v (f s) = mapLeft f (next v s)) (r : Ran α) :
    (mapLeft f r).andThen next = mapLeft f (r.andThen next) := by
  cases r with
  | done v s rs =>
    calc (next v (f s)).afterReads rs = (mapLeft f (next v s)).afterReads rs := by rw [h]
      _ = mapLeft f ((next v s).afterReads rs) := afterReads_mapLeft f rs _
  | raised e s rs => rfl

theorem fetch8_withCount (c : Option Byte) (s : State) :
    fetch8 (withCount c s) = mapLeft (withCount c) (fetch8 s) := by
  cases h : s.mem.byteAt s.regs.pc with
  | some b =>
    rw [fetch8_of_some h]
    exact fetch8_of_some h
  | none =>
    rw [fetch8_of_none h]
    exact fetch8_of_none h

theorem resolve8_withCount (c : Option Byte) (o : Operand) (fam : Family) (s : State) :
    resolve8 o fam (withCount c s) = mapLeft (withCount c) (resolve8 o fam s) := by
  cases o with
  | imm8 => exact fetch8_withCount c s
  | register8 | register16 | imm16 | immSigned8 | memory => rfl

theorem resolve16_withCount (c : Option Byte) (o : Operand) (fam : Family) (s : State) :
    resolve16 o fam (withCount c s) = mapLeft (withCount c) (resolve16 o fam s) := by
  cases o <;> rfl

theorem resolveS8_withCount (c : Option Byte) (o : Operand) (fam : Family) (s : State) :
    resolveS8 o fam (withCount c s) = mapLeft (withCount c) (resolveS8 o fam s) := by
  cases o with
  | immSigned8 =>
    rw [resolveS8, fetch8_withCount]
    exact andThen_mapLeft (fun _ _ => rfl) _
  | register8 | register16 | imm8 | imm16 | memory => rfl

theorem handle_withCount (c : Option Byte) (fam : Family) (o : Operand) (s : State) :
    handle fam o (withCount c s) = mapLeft (withCount c) (handle fam o s) := by
  cases fam with
  | add8 | add16 | addsp | adc | sub | sbc | cp =>
    simp only [handle, handleAdd8, handleAdd16, handleAddSp, handleAdc, handleSub, handleSbc, handleCp,
      resolve8_withCount, resolve16_withCount, resolveS8_withCount]
    exact andThen_mapLeft (fun _ _ => rfl) _

theorem fetchDecode_withCount (c : Option Byte) (s : State) :
    fetchDecode (withCount c s) = mapLeft (withCount c) (fetchDecode s) := by
  rw [fetchDecode, fetch8_withCount]
  exact andThen_mapLeft (fun op _ => by cases decode op <;> rfl) _

/-- A completed tick overwrites the recorded count, and a fault carries no state. -/
theorem outcome_withCount (c : Option Byte) (n : Byte) (r : Ran Unit) :
    (mapLeft (withCount c) r).outcome n = r.outcome n := by
  cases r <;> rfl

theorem step_withCount (c : Option Byte) (s : State) : step (withCount c s) = step s := by
  have hcount := fetchDecode_withCount c s
  cases h : fetchDecode s with
  | done i s1 rs =>
    rw [h] at hcount
    calc step (withCount c s)
        = (handle i.family i.operand (withCount c s1)).outcome i.cycles := step_of_fetchDecode_done hcount
      _ = (handle i.family i.operand s1).outcome i.cycles := by rw [handle_withCount, outcome_withCount]
      _ = step s := (step_of_fetchDecode_done h).symm
  | raised e s1 rs =>
    rw [h] at hcount
    exact (step_of_fetchDecode_raised hcount).trans (step_of_fetchDecode_raised h).symm

/-- Settles O30: the fetch, the operand step and the handlers commute with replacing the count, and a completed tick
overwrites it. -/
theorem returnedCountIsNeverRead : Obligations.ReturnedCountIsNeverRead := fun s c => step_withCount c s

end Sys2Proof.Proofs
end

section
/-! PROOFS. Runs until the first fault (R226, spec decision D22): what ends them, and that there is at most one. -/

namespace Sys2Proof.Proofs
open Sys2Proof Sys2Proof.Machine

/-! ## The ending and the last state of a run -/

theorem runTicks_ending (n : Nat) (s : State) :
    (runTicks n s).ending = .ticksDone ∨ ∃ e, (runTicks n s).ending = .fault e := by
  induction n generalizing s with
  | zero => exact .inl rfl
  | succ n ih =>
    obtain ⟨t, ht⟩ | ⟨e, he⟩ := step_next_or_fault s
    · rw [runTicks_of_next ht]
      exact ih t
    · rw [runTicks_of_fault he]
      exact .inr ⟨e, rfl⟩

theorem not_safeFor_iff {n : Nat} {s : State} : ¬ SafeFor n s ↔ ∃ e, (runTicks n s).ending = .fault e := by
  unfold SafeFor
  obtain h | ⟨e, h⟩ := runTicks_ending n s <;> simp [h]

/-- A run until the first fault is a run of some number of ticks that is not safe. -/
theorem isRun_untilFirstFault_iff {s : State} {r : Run} :
    IsRun .untilFirstFault s r ↔ ∃ n, r = runTicks n s ∧ ¬ SafeFor n s := by
  constructor
  · rintro ⟨n, e, rfl, he⟩
    exact ⟨n, rfl, not_safeFor_iff.mpr ⟨e, he⟩⟩
  · rintro ⟨n, rfl, hn⟩
    obtain ⟨e, he⟩ := not_safeFor_iff.mp hn
    exact ⟨n, e, rfl, he⟩

/-- Two runs until the first fault are the same: each is the run of both numbers of ticks together. -/
theorem isRun_untilFirstFault_unique {s : State} {r r' : Run} (h : IsRun .untilFirstFault s r)
    (h' : IsRun .untilFirstFault s r') : r' = r := by
  obtain ⟨n, rfl, hn⟩ := isRun_untilFirstFault_iff.mp h
  obtain ⟨n', rfl, hn'⟩ := isRun_untilFirstFault_iff.mp h'
  calc runTicks n' s = runTicks (n' + n) s := (runTicks_add_of_not_safe hn' n).symm
    _ = runTicks (n + n') s := by rw [Nat.add_comm]
    _ = runTicks n s := runTicks_add_of_not_safe hn n'

theorem runTicks_counts_length_le (n : Nat) (s : State) : (runTicks n s).counts.length ≤ n := by
  induction n generalizing s with
  | zero => exact Nat.le_refl 0
  | succ n ih =>
    obtain ⟨t, ht⟩ | ⟨e, he⟩ := step_next_or_fault s
    · have hone : t.lastCycles.toList.length ≤ 1 := by cases t.lastCycles <;> simp
      rw [runTicks_of_next ht, List.length_append]
      exact (Nat.add_le_add hone (ih t)).trans_eq (Nat.add_comm 1 n)
    · rw [runTicks_of_fault he]
      exact Nat.zero_le _

theorem runTicks_last_mem (n : Nat) (s : State) : (runTicks n s).last.mem = s.mem := by
  induction n generalizing s with
  | zero => rfl
  | succ n ih =>
    obtain ⟨t, ht⟩ | ⟨e, he⟩ := step_next_or_fault s
    · rw [runTicks_of_next ht]
      exact (ih t).trans (step_next_mem ht)
    · rw [runTicks_of_fault he]

/-- A safe run whose next tick fails ends with that fault (R226). -/
theorem runTicks_succ_of_safe_of_fault {m : Nat} {s : State} {e : Fault} (hsafe : SafeFor m s)
    (he : step (runTicks m s).last = .fault e) :
    runTicks (m + 1) s = Claims.endingWith e (runTicks m s) := by
  rw [runTicks_add_of_safe hsafe, runTicks_of_fault he, List.append_nil]
  rfl

/-! ## An unreadable address -/

/-- A completed tick leaves an unreadable address ahead of `PC`: no instruction steps over it. -/
theorem distance_lt_of_step_next {s t : State} {a : Addr} (ha : s.mem.byteAt a = none) (h : step s = .next t) :
    (a - t.regs.pc).toNat < (a - s.regs.pc).toNat := by
  obtain ⟨op, i, hpc, -, ⟨-, hbyte⟩, -, ht, -⟩ := step_next h
  have hfirst : s.regs.pc ≠ a := by
    rintro rfl
    cases hpc.symm.trans ha
  rw [ht]
  unfold Instr.length
  split
  next htrailing =>
    have hsecond : s.regs.pc + 1 ≠ a := by
      rintro rfl
      obtain ⟨n, hn⟩ := hbyte htrailing
      cases hn.symm.trans ha
    bv_omega
  next => bv_omega

/-- Before the ticks reach an unreadable address, one of them fails. -/
theorem exists_first_fault {a : Addr} (s : State) (ha : s.mem.byteAt a = none) :
    ∃ m e, m ≤ (a - s.regs.pc).toNat ∧ SafeFor m s ∧ step (runTicks m s).last = .fault e := by
  induction hd : (a - s.regs.pc).toNat using Nat.strongRecOn generalizing s with
  | ind d ih =>
    obtain ⟨t, ht⟩ | ⟨e, he⟩ := step_next_or_fault s
    · have hlt := distance_lt_of_step_next ha ht
      rw [hd] at hlt
      obtain ⟨m, e, hm, hsafe, he⟩ := ih _ hlt t (by rwa [step_next_mem ht]) rfl
      refine ⟨m + 1, e, by omega, safeFor_succ.mpr ⟨t, ht, hsafe⟩, ?_⟩
      rwa [runTicks_of_next ht]
    · exact ⟨0, e, Nat.zero_le d, safeFor_zero s, he⟩

/-- Settles O37: `(a - PC) mod 65536` falls with every completed tick, so a tick fails before it would pass `a`; the
run up to that tick is the one run until the first fault. -/
theorem aRunUntilTheFirstFaultEndsBeforeAnUnreadableAddress :
    Obligations.ARunUntilTheFirstFaultEndsBeforeAnUnreadableAddress := by
  intro s a ha
  obtain ⟨m, e, hm, hsafe, he⟩ := exists_first_fault s ha
  have hrun : IsRun .untilFirstFault s (Claims.endingWith e (runTicks m s)) :=
    ⟨m + 1, e, (runTicks_succ_of_safe_of_fault hsafe he).symm, rfl⟩
  exact ⟨_, hrun, fun _ => isRun_untilFirstFault_unique hrun, ⟨e, rfl, he⟩,
    (runTicks_counts_length_le m s).trans hm⟩

/-! ## Runs that never fault -/

theorem neverFaults_iff {s : State} : NeverFaults s ↔ ∀ n, SafeFor n s := Iff.rfl

/-- A tick's success depends on `PC` and the memory alone, so the safety of a run does (R43). -/
theorem safeFor_of_same_mem_pc {n : Nat} {s s' : State} (hmem : s'.mem = s.mem) (hpc : s'.regs.pc = s.regs.pc)
    (h : SafeFor n s) : SafeFor n s' := by
  induction n generalizing s s' with
  | zero => exact safeFor_zero s'
  | succ n ih =>
    obtain ⟨t, ht, hrest⟩ := safeFor_succ.mp h
    obtain ⟨t', ht'⟩ : ∃ t', step s' = .next t' :=
      step_next_of_executes (by rw [hmem, hpc]; exact executes_of_step_next ht)
    obtain ⟨op, i, hop, hdec, -, htmem, htpc, -⟩ := step_next ht
    obtain ⟨op', i', hop', hdec', -, htmem', htpc', -⟩ := step_next ht'
    rw [hmem, hpc] at hop'
    cases hop.symm.trans hop'
    cases hdec.symm.trans hdec'
    exact safeFor_succ.mpr ⟨t', ht', ih (by rw [htmem, htmem', hmem]) (by rw [htpc, htpc', hpc]) hrest⟩

/-- Among the states after 0 to 65536 ticks two have the same `PC`. -/
theorem exists_same_pc (s : State) :
    ∃ i j, i < j ∧ j ≤ 65536 ∧ (runTicks i s).last.regs.pc = (runTicks j s).last.regs.pc := by
  obtain ⟨x, y, hne, heq⟩ := Fintype.exists_ne_map_eq_of_card_lt
    (fun k : Fin 65537 => (runTicks k s).last.regs.pc.toFin) (by simp)
  have hpc : (runTicks x s).last.regs.pc = (runTicks y s).last.regs.pc := BitVec.toFin_inj.mp heq
  obtain hlt | hlt := Nat.lt_or_gt_of_ne (Fin.val_ne_of_ne hne)
  · exact ⟨x, y, hlt, Nat.le_of_lt_succ y.isLt, hpc⟩
  · exact ⟨y, x, hlt, Nat.le_of_lt_succ x.isLt, hpc.symm⟩

/-- Once 65536 ticks have completed, `PC` has come back to where it was with the same memory, and the ticks repeat. -/
theorem neverFaults_of_safeFor {s : State} (h : SafeFor 65536 s) : NeverFaults s := by
  obtain ⟨i, j, hij, hj, hpc⟩ := exists_same_pc s
  have hmem : (runTicks j s).last.mem = (runTicks i s).last.mem := by
    rw [runTicks_last_mem, runTicks_last_mem]
  refine neverFaults_iff.mpr fun n => ?_
  induction n using Nat.strongRecOn with
  | ind n ih =>
    obtain hn | hn := Nat.le_total n j
    · exact h.mono (hn.trans hj)
    · obtain ⟨r, rfl⟩ := Nat.exists_eq_add_of_le hn
      have hrest : SafeFor r (runTicks i s).last :=
        (safeFor_add (h.mono (by omega))).mp (ih (i + r) (by omega))
      exact (safeFor_add (h.mono hj)).mpr (safeFor_of_same_mem_pc hmem hpc.symm hrest)

/-- Over bytes that all execute, every tick completes. -/
theorem neverFaults_of_all_execute {s : State} (h : ∀ pc, Executes s.mem pc) : NeverFaults s := by
  refine neverFaults_iff.mpr fun n => ?_
  induction n generalizing s with
  | zero => exact safeFor_zero s
  | succ n ih =>
    obtain ⟨t, ht⟩ := step_next_of_executes (h s.regs.pc)
    exact safeFor_succ.mpr ⟨t, ht, ih (by rwa [step_next_mem ht])⟩

theorem exists_isRun_untilFirstFault_iff {s : State} : (∃ r, IsRun .untilFirstFault s r) ↔ ¬ NeverFaults s := by
  simp [isRun_untilFirstFault_iff, neverFaults_iff]

/-- Settles O38: pigeonhole on `PC` for the first clause, induction on the ticks for the second. -/
theorem aRunThatOutlastsTheAddressSpaceNeverFaults : Obligations.ARunThatOutlastsTheAddressSpaceNeverFaults := by
  refine ⟨fun s => ⟨neverFaults_of_safeFor, fun h => h 65536⟩, fun s hall => ?_,
    fun s => exists_isRun_untilFirstFault_iff⟩
  refine neverFaults_of_all_execute fun pc => ?_
  obtain ⟨op, i, hop, hdec, hmemform⟩ := hall pc
  obtain ⟨n, _, hn, _⟩ := hall (pc + 1)
  exact ⟨op, i, hop, hdec, hmemform, fun _ => ⟨n, hn⟩⟩

end Sys2Proof.Proofs
end

section
/-! PROOFS. The two views of the register file (spec/10_state.md sections 2 and 3): a pair as its two bytes, and `F` as
its four flags over a zero low nibble. The statements about them and about the reset state. -/

namespace Sys2Proof.Proofs
open Sys2Proof Sys2Proof.Machine

/-! ## Pairs -/

theorem pairOf_toNat (hi lo : Byte) : (pairOf hi lo).toNat = hi.toNat * 256 + lo.toNat := by
  rw [pairOf, BitVec.toNat_append, ← Nat.shiftLeft_add_eq_or_of_lt lo.isLt, Nat.shiftLeft_eq]

theorem highByte_eq (v : Word) : highByte v = BitVec.ofNat 8 (v.toNat / 256) := by
  rw [highByte, BitVec.extractLsb', Nat.shiftRight_eq_div_pow]

theorem lowByte_eq (v : Word) : lowByte v = BitVec.ofNat 8 (v.toNat % 256) := by
  rw [lowByte, BitVec.extractLsb', Nat.shiftRight_zero, ← BitVec.toNat_inj, BitVec.toNat_ofNat, BitVec.toNat_ofNat,
    Nat.mod_mod]

/-- Splitting a 16-bit value and composing the bytes again gives it back (R13). -/
theorem pairOf_highByte_lowByte (v : Word) : pairOf (highByte v) (lowByte v) = v := by
  refine BitVec.eq_of_toNat_eq ?_
  rw [pairOf_toNat, highByte_eq, lowByte_eq, BitVec.toNat_ofNat, BitVec.toNat_ofNat]
  have := v.isLt
  omega

theorem read16_write16_same (r : RegFile) (p : Reg16) (v : Word) : (r.write16 p v).read16 p = v := by
  cases p with
  | bc | de | hl => exact pairOf_highByte_lowByte v
  | sp => rfl

/-- Settles O5: the value of a pair, and the two bytes of a pair write. -/
theorem pairViewsAreByteCompositions : Obligations.PairViewsAreByteCompositions := by
  refine ⟨fun r => ⟨pairOf_toNat r.b r.c, pairOf_toNat r.d r.e, pairOf_toNat r.h r.l, rfl⟩, read16_write16_same,
    fun r v => ?_⟩
  rw [← highByte_eq, ← lowByte_eq]
  exact ⟨rfl, rfl, rfl, rfl⟩

/-! ## The flag byte -/

/-- Each flag is a bit, so the value of the byte is the sum of the bits that are set (R15). -/
theorem pack_toNat (fl : FlagSet) :
    (pack fl).toNat = fl.z.toNat * 0x80 + fl.n.toNat * 0x40 + fl.h.toNat * 0x20 + fl.c.toNat * 0x10 := by
  obtain ⟨z, n, h, c⟩ := fl
  revert z n h c
  decide

theorem lowNibble_eq_zero_iff (f : Byte) : f &&& 0x0F = 0 ↔ f.toNat % 16 = 0 := by
  rw [← BitVec.toNat_inj, BitVec.toNat_and]
  exact (congrArg (· = 0) (Nat.and_two_pow_sub_one_eq_mod f.toNat 4)).to_iff

theorem pack_lowNibble (fl : FlagSet) : pack fl &&& 0x0F = 0 := by
  rw [lowNibble_eq_zero_iff, pack_toNat]
  omega

theorem unpack_pack (fl : FlagSet) : unpack (pack fl) = fl := by
  obtain ⟨z, n, h, c⟩ := fl
  revert z n h c
  decide

/-- Packing the unpacked flags clears the low nibble and keeps the upper one. -/
theorem pack_unpack (f : Byte) : pack (unpack f) = f &&& 0xF0 := by
  refine BitVec.eq_of_getLsbD_eq fun i hi => ?_
  simp only [pack, BitVec.getLsbD_append]
  interval_cases i <;> simp [unpack]

theorem pack_unpack_of_lowNibble {f : Byte} (h : f &&& 0x0F = 0) : pack (unpack f) = f :=
  calc pack (unpack f) = f &&& 0xF0 := pack_unpack f
    _ = (f &&& 0xF0) ||| (f &&& 0x0F) := by rw [h]; exact BitVec.or_zero.symm
    _ = f &&& 0xFF := BitVec.and_or_distrib_left.symm
    _ = f := BitVec.and_allOnes

/-- Settles O6: the value of a packed byte, and `pack` and `unpack` as inverses on a zero low nibble. -/
theorem flagsStandInTheUpperNibble : Obligations.FlagsStandInTheUpperNibble :=
  ⟨fun fl => ⟨pack_toNat fl, pack_lowNibble fl, unpack_pack fl⟩, fun _ => pack_unpack_of_lowNibble⟩

/-! ## Reset -/

theorem reset_lowNibble : State.reset.regs.f &&& 0x0F = 0 := rfl

/-- Settles O7: the reset constants, and the fetch that finds no byte at the entry point. -/
theorem resetClearsEveryRegister : Obligations.ResetClearsEveryRegister :=
  ⟨rfl, rfl, rfl, rfl, rfl, reset_lowNibble, congrArg Ran.reads (fetch8_of_none rfl)⟩

/-- Settles O31: the flag byte is zero, and no address is listed. -/
theorem invariantHoldsAtReset : Obligations.InvariantHoldsAtReset := ⟨reset_lowNibble, Memory.reset_wf⟩

end Sys2Proof.Proofs
end

section
/-! PROOFS. What an instruction can write, said once for each family (R10, R18): the frame of `handle`, then of `exec`,
then of `step`. The frame statements and the invariant are derived from it. -/

namespace Sys2Proof.Proofs
open Sys2Proof Sys2Proof.Machine

/-! ## The operand step moves `PC` at most -/

theorem resolve8_left (o : Operand) (fam : Family) (s : State) :
    ∃ pc, (resolve8 o fam s).left = Claims.withPc pc s := by
  obtain ⟨_, _, h⟩ | ⟨_, _, _, h⟩ | ⟨_, _, h⟩ | ⟨_, _, h⟩ := resolve8_cases o fam s <;>
    exact ⟨_, congrArg Ran.left h⟩

theorem resolve16_left (o : Operand) (fam : Family) (s : State) : (resolve16 o fam s).left = s := by
  cases o <;> rfl

theorem resolveS8_left (o : Operand) (fam : Family) (s : State) :
    ∃ pc, (resolveS8 o fam s).left = Claims.withPc pc s := by
  by_cases ho : o = .immSigned8
  · subst ho
    cases h : s.mem.byteAt s.regs.pc with
    | some e => exact ⟨_, congrArg Ran.left (resolveS8_of_some fam h)⟩
    | none => exact ⟨_, congrArg Ran.left (resolveS8_of_none fam h)⟩
  · exact ⟨_, congrArg Ran.left (resolveS8_other ho fam s)⟩

/-! ## The frame of a family -/

/-- The register file `r` with the items that a family may write taken from `t`: `F` and `PC` for every family, `A` for
the four arithmetic 8-bit families, `H` and `L` for ADD16, `SP` for ADDSP. -/
def takingWritten (fam : Family) (t r : RegFile) : RegFile :=
  match fam with
  | .add8 | .adc | .sub | .sbc => { r with a := t.a, f := t.f, pc := t.pc }
  | .cp => { r with f := t.f, pc := t.pc }
  | .add16 => { r with h := t.h, l := t.l, f := t.f, pc := t.pc }
  | .addsp => { r with sp := t.sp, f := t.f, pc := t.pc }

/-- From `s` to `t` an instruction of the family wrote its own registers at most, left bits 3 to 0 of `F` zero, and
kept the memory. -/
structure Framed (fam : Family) (s t : State) : Prop where
  regs : t.regs = takingWritten fam t.regs s.regs
  flags : t.regs.f &&& 0x0F = 0
  mem : t.mem = s.mem

/-- A sequence that is done ran its second part in the state that the first one left. -/
theorem left_of_andThen_done {α β : Type} {r : Ran α} {next : α → State → Ran β} {v : β} {t : State}
    {rs : List Addr} (h : r.andThen next = .done v t rs) : ∃ u, (next u r.left).left = t := by
  cases r with
  | done u s1 rs1 =>
    refine ⟨u, ?_⟩
    rw [Ran.andThen_done] at h
    cases hnext : next u s1 with
    | done w s2 rs2 =>
      rw [hnext] at h
      cases h
      exact congrArg Ran.left hnext
    | raised e s2 rs2 =>
      rw [hnext] at h
      cases h
  | raised e s1 rs1 => cases h

/-- The frame of every handler: it writes its registers and `F` on top of what the operand step left. -/
theorem handle_framed {fam : Family} {o : Operand} {s t : State} {rs : List Addr}
    (h : handle fam o s = .done () t rs) : Framed fam s t := by
  cases fam with
  | add8 | adc | sub | sbc | cp =>
    obtain ⟨v, rfl⟩ := left_of_andThen_done h
    obtain ⟨pc, hpc⟩ := resolve8_left o _ s
    rw [hpc]
    exact ⟨rfl, pack_lowNibble _, rfl⟩
  | add16 =>
    obtain ⟨v, rfl⟩ := left_of_andThen_done h
    rw [resolve16_left]
    exact ⟨rfl, pack_lowNibble _, rfl⟩
  | addsp =>
    obtain ⟨v, rfl⟩ := left_of_andThen_done h
    obtain ⟨pc, hpc⟩ := resolveS8_left o .addsp s
    rw [hpc]
    exact ⟨rfl, pack_lowNibble _, rfl⟩

/-- The frame of an instruction is that of its family's handler; recording the count touches none of it. -/
theorem exec_framed {i : Instr} {s t : State} (h : exec i s = .next t) : Framed i.family s t := by
  rw [exec_eq_handle] at h
  cases hh : handle i.family i.operand s with
  | done u s1 rs =>
    rw [hh] at h
    cases h
    obtain ⟨hregs, hflags, hmem⟩ := handle_framed hh
    exact ⟨hregs, hflags, hmem⟩
  | raised e s1 rs =>
    rw [hh] at h
    cases h

/-! ## The frames of the forms -/

theorem Framed.sameBytes {fam : Family} {s t : State} (h : Framed fam s t) : Claims.SameBytes s t :=
  fun _ => by rw [h.mem]

theorem takingWritten_accumulator {fam : Family} (h : fam ∈ [Family.add8, .adc, .sub, .sbc]) (t r : RegFile) :
    takingWritten fam t r = { r with a := t.a, f := t.f, pc := t.pc } := by
  cases fam with
  | add8 | adc | sub | sbc => rfl
  | add16 | addsp | cp => simp at h

theorem family_of_accumulatorForms : ∀ i ∈ Claims.accumulatorForms, i.family ∈ [Family.add8, .adc, .sub, .sbc] := by
  decide

theorem family_of_compareForms : ∀ i ∈ Claims.compareForms, i.family = .cp := by decide

theorem family_of_addHlForms : ∀ i ∈ Claims.addHlForms, i.family = .add16 := by decide

/-- Settles O56: the frame of the four arithmetic 8-bit families. -/
theorem accumulatorFormsChangeOnlyAFPcAndCount : Obligations.AccumulatorFormsChangeOnlyAFPcAndCount := by
  intro i hi s t h
  have hframe := exec_framed h
  exact ⟨hframe.regs.trans (takingWritten_accumulator (family_of_accumulatorForms i hi) _ _), hframe.flags,
    hframe.sameBytes⟩

/-- Settles O57: the frame of CP. -/
theorem compareFormsChangeOnlyFPcAndCount : Obligations.CompareFormsChangeOnlyFPcAndCount := by
  intro i hi s t h
  have hframe := exec_framed h
  rw [family_of_compareForms i hi] at hframe
  exact ⟨hframe.regs, hframe.flags, hframe.sameBytes⟩

/-- Settles O58: the frame of ADD16. -/
theorem addHlFormsChangeOnlyHlFPcAndCount : Obligations.AddHlFormsChangeOnlyHlFPcAndCount := by
  intro i hi s t h
  have hframe := exec_framed h
  rw [family_of_addHlForms i hi] at hframe
  exact ⟨hframe.regs, hframe.flags, hframe.sameBytes⟩

/-- Settles O59: the frame of ADDSP. -/
theorem addSpChangesOnlySpFPcAndCount : Obligations.AddSpChangesOnlySpFPcAndCount := by
  intro s t h
  have hframe := exec_framed h
  exact ⟨hframe.regs, hframe.flags, hframe.sameBytes⟩

/-! ## The frame of a tick -/

/-- A completed tick ran the instruction that its opcode byte decodes to, in the state with `PC` past that byte. -/
theorem exec_of_step_next {s t : State} (h : step s = .next t) :
    ∃ op i, s.mem.byteAt s.regs.pc = some op ∧ decode op = .ok i ∧ exec i s.advancePc = .next t := by
  obtain ⟨-, hf⟩ | ⟨op, -, -, hf⟩ | ⟨op, i, hop, hdec, hf⟩ := fetchDecode_cases s
  · cases h.symm.trans (step_of_fetchDecode_raised hf)
  · cases h.symm.trans (step_of_fetchDecode_raised hf)
  · refine ⟨op, i, hop, hdec, ?_⟩
    rw [exec_eq_handle, ← step_of_fetchDecode_done hf]
    exact h

/-- The opcode fetch advances `PC` only, which every family may write. -/
theorem Framed.of_advancePc {fam : Family} {s t : State} (h : Framed fam s.advancePc t) : Framed fam s t := by
  obtain ⟨hregs, hflags, hmem⟩ := h
  exact ⟨hregs.trans (by cases fam <;> rfl), hflags, hmem⟩

/-- What a completed tick wrote is what the family of the instruction at `PC` may write. -/
theorem step_framed {s t : State} (h : step s = .next t) :
    ∃ op i, s.mem.byteAt s.regs.pc = some op ∧ decode op = .ok i ∧ Framed i.family s t := by
  obtain ⟨op, i, hop, hdec, hexec⟩ := exec_of_step_next h
  exact ⟨op, i, hop, hdec, (exec_framed hexec).of_advancePc⟩

/-- Settles O32: the frame leaves bits 3 to 0 of `F` zero whatever they were, and keeps the memory. -/
theorem stepKeepsTheInvariant : Obligations.StepKeepsTheInvariant := by
  constructor
  · rintro s t ⟨-, hwf⟩ h
    obtain ⟨_, _, _, _, hframe⟩ := step_framed h
    exact ⟨hframe.flags, by rw [hframe.mem]; exact hwf⟩
  · intro s t h
    obtain ⟨_, _, _, _, hframe⟩ := step_framed h
    exact (lowNibble_eq_zero_iff _).mp hframe.flags

/-! ## The registers one by one -/

theorem takingWritten_bcde (fam : Family) (t r : RegFile) :
    (takingWritten fam t r).b = r.b ∧ (takingWritten fam t r).c = r.c ∧ (takingWritten fam t r).d = r.d ∧
      (takingWritten fam t r).e = r.e := by
  cases fam <;> exact ⟨rfl, rfl, rfl, rfl⟩

theorem takingWritten_a {fam : Family} (h : fam ∈ [Family.add16, .addsp, .cp]) (t r : RegFile) :
    (takingWritten fam t r).a = r.a := by
  cases fam with
  | add16 | addsp | cp => rfl
  | add8 | adc | sub | sbc => simp at h

theorem takingWritten_hl {fam : Family} (h : fam ≠ .add16) (t r : RegFile) :
    (takingWritten fam t r).h = r.h ∧ (takingWritten fam t r).l = r.l := by
  cases fam with
  | add16 => exact absurd rfl h
  | add8 | addsp | adc | sub | sbc | cp => exact ⟨rfl, rfl⟩

theorem takingWritten_sp {fam : Family} (h : fam ≠ .addsp) (t r : RegFile) : (takingWritten fam t r).sp = r.sp := by
  cases fam with
  | addsp => exact absurd rfl h
  | add8 | add16 | adc | sub | sbc | cp => rfl

/-- Settles O33: the frame of a tick, read register by register. -/
theorem onlyAccumulatorFlagsHlSpAndPcEverChange : Obligations.OnlyAccumulatorFlagsHlSpAndPcEverChange := by
  intro s t h
  obtain ⟨op, i, hop, hdec, hregs, -, -⟩ := step_framed h
  rw [hregs]
  obtain ⟨hb, hc, hd, he⟩ := takingWritten_bcde i.family t.regs s.regs
  exact ⟨hb, hc, hd, he, op, i, hop, hdec, fun hfam => takingWritten_a hfam _ _,
    fun hfam => takingWritten_hl hfam _ _, fun hfam => takingWritten_sp hfam _ _⟩

end Sys2Proof.Proofs
end

section
/-! PROOFS. The old flags as an input (R18): the operand step never reads `F`, and of the handlers only those of ADC and
SBC do, through Carry. -/

namespace Sys2Proof.Proofs
open Sys2Proof Sys2Proof.Machine

/-! ## The operand step and the updates it does not see -/

/-- An update of the state that the operand step does not see: it keeps what a fetch and an operand register read, and
commutes with the advance of `PC`. -/
structure OffOperands (f : State → State) : Prop where
  mem : ∀ s, (f s).mem = s.mem
  pc : ∀ s, (f s).regs.pc = s.regs.pc
  reg8 : ∀ s w, (f s).reg8 w = s.reg8 w
  reg16 : ∀ s p, (f s).reg16 p = s.reg16 p
  advancePc : ∀ s, (f s).advancePc = f s.advancePc

theorem OffOperands.fetch8_commutes {f : State → State} (hf : OffOperands f) (s : State) :
    fetch8 (f s) = mapLeft f (fetch8 s) := by
  cases h : s.mem.byteAt s.regs.pc with
  | some b =>
    have h' : (f s).mem.byteAt (f s).regs.pc = some b := by rwa [hf.mem, hf.pc]
    rw [fetch8_of_some h, fetch8_of_some h', hf.advancePc, hf.pc]
    rfl
  | none =>
    have h' : (f s).mem.byteAt (f s).regs.pc = none := by rwa [hf.mem, hf.pc]
    rw [fetch8_of_none h, fetch8_of_none h', hf.pc]
    rfl

theorem OffOperands.resolve8_commutes {f : State → State} (hf : OffOperands f) (o : Operand) (fam : Family)
    (s : State) : resolve8 o fam (f s) = mapLeft f (resolve8 o fam s) := by
  cases o with
  | register8 w =>
    rw [resolve8_register8, hf.reg8]
    rfl
  | imm8 => exact hf.fetch8_commutes s
  | register16 | imm16 | immSigned8 | memory => rfl

theorem OffOperands.resolve16_commutes {f : State → State} (hf : OffOperands f) (o : Operand) (fam : Family)
    (s : State) : resolve16 o fam (f s) = mapLeft f (resolve16 o fam s) := by
  cases o with
  | register16 p =>
    rw [resolve16_register16, hf.reg16]
    rfl
  | register8 | imm8 | imm16 | immSigned8 | memory => rfl

theorem OffOperands.resolveS8_commutes {f : State → State} (hf : OffOperands f) (o : Operand) (fam : Family)
    (s : State) : resolveS8 o fam (f s) = mapLeft f (resolveS8 o fam s) := by
  cases o with
  | immSigned8 =>
    rw [resolveS8, hf.fetch8_commutes]
    exact andThen_mapLeft (fun _ _ => rfl) _
  | register8 | register16 | imm8 | imm16 | memory => rfl

/-- The state with another byte in `F`. -/
def withFlagByte (f : Byte) (s : State) : State := { s with regs := { s.regs with f := f } }

theorem offOperands_withFlagByte (f : Byte) : OffOperands (withFlagByte f) where
  mem _ := rfl
  pc _ := rfl
  reg8 _ w := by cases w <;> rfl
  reg16 _ p := by cases p <;> rfl
  advancePc _ := rfl

/-! ## The handlers overwrite `F` -/

/-- An update of the state that the second part does not see, in the state where it starts, does not show in the
outcome. -/
theorem outcome_andThen_mapLeft {α : Type} {f : State → State} {next : α → State → Ran Unit} {r : Ran α}
    (h : ∀ v, next v (f r.left) = next v r.left) (n : Byte) :
    ((mapLeft f r).andThen next).outcome n = (r.andThen next).outcome n := by
  cases r with
  | done v s rs => exact congrArg (fun x => (x.afterReads rs).outcome n) (h v)
  | raised e s rs => rfl

/-- The operand step leaves the flags, so Carry after it is Carry before it. -/
theorem resolve8_left_flags (o : Operand) (fam : Family) (s : State) : (resolve8 o fam s).left.flags = s.flags := by
  obtain ⟨pc, h⟩ := resolve8_left o fam s
  rw [h]
  rfl

/-- Replacing `F` shows in no outcome, if the family does not read Carry or Carry is the same. -/
theorem handle_outcome_withFlagByte {fam : Family} {s : State} {f : Byte}
    (h : fam = .adc ∨ fam = .sbc → (unpack f).c = s.flags.c) (o : Operand) (n : Byte) :
    (handle fam o (withFlagByte f s)).outcome n = (handle fam o s).outcome n := by
  have hoff := offOperands_withFlagByte f
  cases fam with
  | add8 | sub | cp =>
    simp only [handle, handleAdd8, handleSub, handleCp, hoff.resolve8_commutes]
    exact outcome_andThen_mapLeft (fun _ => rfl) n
  | add16 =>
    simp only [handle, handleAdd16, hoff.resolve16_commutes]
    exact outcome_andThen_mapLeft (fun _ => rfl) n
  | addsp =>
    simp only [handle, handleAddSp, hoff.resolveS8_commutes]
    exact outcome_andThen_mapLeft (fun _ => rfl) n
  | adc | sbc =>
    simp only [handle, handleAdc, handleSbc, hoff.resolve8_commutes]
    refine outcome_andThen_mapLeft (fun v => ?_) n
    have hcarry (fam : Family) :
        (withFlagByte f (resolve8 o fam s).left).flags.c = (resolve8 o fam s).left.flags.c :=
      (h (by simp)).trans (congrArg FlagSet.c (resolve8_left_flags o fam s)).symm
    rw [hcarry]
    rfl

theorem exec_withFlagByte {i : Instr} {s : State} {f : Byte}
    (h : i.family = .adc ∨ i.family = .sbc → (unpack f).c = s.flags.c) : exec i (withFlagByte f s) = exec i s := by
  rw [exec_eq_handle, exec_eq_handle, handle_outcome_withFlagByte h]

/-- Settles O29: outside ADC and SBC no handler reads `F`; in them the handler reads Carry. -/
theorem oldFlagsAreAnInputThroughCarryOnly : Obligations.OldFlagsAreAnInputThroughCarryOnly := by
  constructor
  · intro i s f hadc hsbc
    exact exec_withFlagByte fun hfam => (hfam.elim hadc hsbc).elim
  · intro i s f hcarry
    exact exec_withFlagByte fun _ => hcarry

end Sys2Proof.Proofs
end

section
/-! PROOFS. What a tick reads (R43): the opcode byte, and the byte after it for an operand that has one. -/

namespace Sys2Proof.Proofs
open Sys2Proof Sys2Proof.Machine

theorem reads_afterReads {α : Type} (rs : List Addr) (r : Ran α) : (r.afterReads rs).reads = rs ++ r.reads := by
  cases r <;> rfl

/-- A second part that asks for nothing adds nothing to the reads. -/
theorem reads_andThen {α β : Type} {next : α → State → Ran β} (h : ∀ v s, (next v s).reads = []) (r : Ran α) :
    (r.andThen next).reads = r.reads := by
  cases r with
  | done v s rs => rw [Ran.andThen_done, reads_afterReads, h, List.append_nil, Ran.reads]
  | raised e s rs => rfl

/-- A fetch asks for `PC` alone, whether or not it answers. -/
theorem fetch8_reads (s : State) : (fetch8 s).reads = [s.regs.pc] := by
  cases h : s.mem.byteAt s.regs.pc with
  | some b => rw [fetch8_of_some h, Ran.reads]
  | none => rw [fetch8_of_none h, Ran.reads]

/-- A handler reads the immediate byte of its operand, if there is one, and nothing else. -/
theorem handle_reads {fam : Family} {o : Operand} (h : fam.assigns o = true) (s : State) :
    (handle fam o s).reads = if o.hasTrailing then [s.regs.pc] else [] := by
  obtain ⟨h16, hsp, hkind⟩ | ⟨rfl, p, rfl⟩ | ⟨rfl, rfl⟩ := operand_of_assigns h
  · obtain ⟨write, -, hhandle⟩ := handle_eq_resolve8 h16 hsp
    rw [hhandle, reads_andThen fun _ _ => rfl]
    obtain ⟨w, rfl⟩ | rfl | rfl := hkind
    · rfl
    · exact fetch8_reads s
    · rfl
  · rfl
  · obtain ⟨write, -, hhandle⟩ := handle_addsp_eq_resolveS8
    rw [hhandle, reads_andThen fun _ _ => rfl, resolveS8, reads_andThen fun _ _ => rfl]
    exact fetch8_reads s

theorem tick_of_fetchDecode_raised {s s1 : State} {e : Fault} {rs : List Addr}
    (h : fetchDecode s = .raised e s1 rs) : tick s = .raised e s1 rs := by
  rw [tick, h, Ran.andThen_raised]

/-- Where the opcode byte decodes, the tick asks for it and then for the instruction's immediate byte, if there is
one. -/
theorem tick_reads_of_decode {s : State} {op : Byte} {i : Instr} (hop : s.mem.byteAt s.regs.pc = some op)
    (hdec : decode op = .ok i) :
    (tick s).reads = s.regs.pc :: if i.operand.hasTrailing then [s.regs.pc + 1] else [] := by
  have hfetch : fetchDecode s = .done i s.advancePc [s.regs.pc] := by
    simp [fetchDecode, fetch8_of_some hop, hdec]
  have hexec : (execute i.value s.advancePc).reads = if i.operand.hasTrailing then [s.regs.pc + 1] else [] :=
    (reads_andThen (fun _ _ => rfl) _).trans (handle_reads (assigns_family_operand i) s.advancePc)
  rw [tick, hfetch, Ran.andThen_done, reads_afterReads, hexec, List.singleton_append]

/-- Settles O26: the opcode fetch reads `PC`, and the handler of a decoded instruction reads its immediate byte. -/
theorem aTickReadsItsOwnBytesOnly : Obligations.ATickReadsItsOwnBytesOnly := by
  intro s
  constructor
  · rintro ⟨op, i, hop, hdec, htrailing⟩
    rw [tick_reads_of_decode hop hdec, if_pos htrailing]
  · intro hnone
    obtain ⟨-, hf⟩ | ⟨op, -, -, hf⟩ | ⟨op, i, hop, hdec, -⟩ := fetchDecode_cases s
    · rw [tick_of_fetchDecode_raised hf, Ran.reads]
    · rw [tick_of_fetchDecode_raised hf, Ran.reads]
    · rw [tick_reads_of_decode hop hdec, if_neg fun htrailing => hnone ⟨op, i, hop, hdec, htrailing⟩]

/-- Settles O27: the completed case of `step_cases` keeps the memory. -/
theorem stepNeverWritesMemory : Obligations.StepNeverWritesMemory := by
  intro s t h
  have hmem := step_next_mem h
  exact ⟨hmem, fun _ => by rw [hmem]⟩

end Sys2Proof.Proofs
end

section
/-! PROOFS. The memory as an input (R32, R36, R43): a part of a tick commutes with replacing the memory by one that
answers alike at the byte the part reads. -/

namespace Sys2Proof.Proofs
open Sys2Proof Sys2Proof.Machine

theorem fetch8_attach {s : State} {m : Memory} (h : m.byteAt s.regs.pc = s.mem.byteAt s.regs.pc) :
    fetch8 (s.attach m) = mapLeft (·.attach m) (fetch8 s) := by
  cases hb : s.mem.byteAt s.regs.pc with
  | some b =>
    rw [fetch8_of_some hb]
    exact fetch8_of_some (h.trans hb)
  | none =>
    rw [fetch8_of_none hb]
    exact fetch8_of_none (h.trans hb)

/-- Only an operand with an immediate byte puts a condition on the other memory. -/
def AlikeForOperand (o : Operand) (m : Memory) (s : State) : Prop :=
  o.hasTrailing = true → m.byteAt s.regs.pc = s.mem.byteAt s.regs.pc

theorem resolve8_attach {o : Operand} {m : Memory} {s : State} (h : AlikeForOperand o m s) (fam : Family) :
    resolve8 o fam (s.attach m) = mapLeft (·.attach m) (resolve8 o fam s) := by
  cases o with
  | imm8 => exact fetch8_attach (h rfl)
  | register8 | register16 | imm16 | immSigned8 | memory => rfl

theorem resolve16_attach (o : Operand) (m : Memory) (s : State) (fam : Family) :
    resolve16 o fam (s.attach m) = mapLeft (·.attach m) (resolve16 o fam s) := by
  cases o <;> rfl

theorem resolveS8_attach {o : Operand} {m : Memory} {s : State} (h : AlikeForOperand o m s) (fam : Family) :
    resolveS8 o fam (s.attach m) = mapLeft (·.attach m) (resolveS8 o fam s) := by
  cases o with
  | immSigned8 =>
    rw [resolveS8, fetch8_attach (h rfl)]
    exact andThen_mapLeft (fun _ _ => rfl) _
  | register8 | register16 | imm8 | imm16 | memory => rfl

theorem handle_attach {o : Operand} {m : Memory} {s : State} (h : AlikeForOperand o m s) (fam : Family) :
    handle fam o (s.attach m) = mapLeft (·.attach m) (handle fam o s) := by
  cases fam with
  | add8 | add16 | addsp | adc | sub | sbc | cp =>
    simp only [handle, handleAdd8, handleAdd16, handleAddSp, handleAdc, handleSub, handleSbc, handleCp,
      resolve8_attach h, resolve16_attach, resolveS8_attach h]
    exact andThen_mapLeft (fun _ _ => rfl) _

theorem fetchDecode_attach {s : State} {m : Memory} (h : m.byteAt s.regs.pc = s.mem.byteAt s.regs.pc) :
    fetchDecode (s.attach m) = mapLeft (·.attach m) (fetchDecode s) := by
  rw [fetchDecode, fetch8_attach h]
  exact andThen_mapLeft (fun op _ => by cases decode op <;> rfl) _

theorem outcome_attach (m : Memory) (n : Byte) (r : Ran Unit) :
    (mapLeft (·.attach m) r).outcome n = Claims.withMemory m (r.outcome n) := by
  cases r <;> rfl

/-- A fetch that fails, or whose byte does not decode, ends the tick with the same fault over the other memory. -/
theorem step_attach_of_fetchDecode_raised {s s1 : State} {m : Memory} {e : Fault} {rs : List Addr}
    (halike : m.byteAt s.regs.pc = s.mem.byteAt s.regs.pc) (h : fetchDecode s = .raised e s1 rs) :
    step (s.attach m) = Claims.withMemory m (step s) := by
  have hfetch := fetchDecode_attach halike
  rw [h] at hfetch
  rw [step_of_fetchDecode_raised h, step_of_fetchDecode_raised hfetch, Claims.withMemory]

/-- A decoded instruction runs its handler alike over the other memory. -/
theorem step_attach_of_fetchDecode_done {s s1 : State} {m : Memory} {i : Instr} {rs : List Addr}
    (halike : m.byteAt s.regs.pc = s.mem.byteAt s.regs.pc) (h : fetchDecode s = .done i s1 rs)
    (hoperand : AlikeForOperand i.operand m s1) : step (s.attach m) = Claims.withMemory m (step s) := by
  have hfetch := fetchDecode_attach halike
  rw [h] at hfetch
  calc step (s.attach m)
      = (handle i.family i.operand (s1.attach m)).outcome i.cycles := step_of_fetchDecode_done hfetch
    _ = Claims.withMemory m ((handle i.family i.operand s1).outcome i.cycles) := by
        rw [handle_attach hoperand, outcome_attach]
    _ = Claims.withMemory m (step s) := by rw [step_of_fetchDecode_done h]

/-- Settles O28: the fetch sees the byte at `PC`, and the operand step the byte after it, if the operand has one. -/
theorem outcomeDependsOnTheInstructionBytesOnly : Obligations.OutcomeDependsOnTheInstructionBytesOnly := by
  intro s m halike hnext
  obtain ⟨-, hf⟩ | ⟨op, -, -, hf⟩ | ⟨op, i, hop, hdec, hf⟩ := fetchDecode_cases s
  · exact step_attach_of_fetchDecode_raised halike hf
  · exact step_attach_of_fetchDecode_raised halike hf
  · exact step_attach_of_fetchDecode_done halike hf fun htrailing => hnext ⟨op, i, hop, hdec, htrailing⟩

end Sys2Proof.Proofs
end

section
/-! PROOFS. A byte buffer at base 0 (R30, R31, spec decision D9). -/

namespace Sys2Proof.Proofs
open Sys2Proof Sys2Proof.Machine

/-- The bytes from `k` on answer at `k + j` with the byte of index `j`, as far as the address space reaches. -/
theorem lookup_bytesFrom (bytes : List Byte) {k j : Nat} (h : k + j < Config.addressCount) :
    (Memory.bytesFrom k bytes).lookup (k + j) = bytes[j]? := by
  induction bytes generalizing k j with
  | nil => rfl
  | cons v vs ih =>
    rw [Memory.bytesFrom, if_pos (by omega)]
    cases j with
    | zero => simp
    | succ j =>
      have hne : (k + (j + 1) == k) = false := by simp
      have hkey : k + (j + 1) = k + 1 + j := by omega
      rw [List.lookup, hne, List.getElem?_cons_succ, hkey]
      exact ih (by omega)

theorem byteAt_ofBuffer (bytes : List Byte) (a : Addr) : (Memory.ofBuffer bytes).byteAt a = bytes[a.toNat]? := by
  have h := lookup_bytesFrom bytes (k := 0) (j := a.toNat) (by simpa [Config.addressCount] using a.isLt)
  rwa [Nat.zero_add] at h

theorem memRead_of_none {a : Addr} {s : State} (h : s.mem.byteAt a = none) :
    memRead a s = .raised (.failed (.outOfRange a)) s [a] := by
  rw [memRead, h]

/-- Settles O39: the buffer answers by index, and no index from the length on has a byte. -/
theorem bufferAnswersBelowItsLength : Obligations.BufferAnswersBelowItsLength := by
  intro bytes _
  refine ⟨byteAt_ofBuffer bytes, fun s a hmem hlen => memRead_of_none ?_⟩
  rw [hmem, byteAt_ofBuffer, List.getElem?_eq_none hlen]

end Sys2Proof.Proofs
end

section
/-! PROOFS. The decoder of one byte is the inverse of `opcode` (R55): a family claims exactly the opcode bytes of its
own instructions, so the registration order cannot matter (R56), and the bytes that no family claims are those of R57. -/

namespace Sys2Proof.Proofs
open Sys2Proof Sys2Proof.Machine

/-! ## What a family claims -/

theorem decode_opcode (i : Instr) : decode (opcode i) = .ok i := by cases i <;> rfl

theorem opcode_injective : Function.Injective opcode := by
  intro i j h
  have hdec : decode (opcode i) = .ok j := h ▸ decode_opcode j
  exact Except.ok.inj ((decode_opcode i).symm.trans hdec)

theorem opcode_family_of_mem_table {fam : Family} :
    ∀ row ∈ table fam, opcode row.2 = row.1 ∧ row.2.family = fam := by
  cases fam <;> decide

theorem claim_opcode_family (i : Instr) : claim (opcode i) i.family = some i := by cases i <;> rfl

/-- A family claims exactly the opcode bytes of its own instructions (R55). -/
theorem claim_eq_some_iff {op : Byte} {fam : Family} {i : Instr} :
    claim op fam = some i ↔ opcode i = op ∧ i.family = fam := by
  constructor
  · intro h
    obtain ⟨before, after, htable, -⟩ := List.lookup_eq_some_iff.mp h
    exact opcode_family_of_mem_table (op, i) (by simp [htable])
  · rintro ⟨rfl, rfl⟩
    exact claim_opcode_family i

/-- No byte is claimed by two families: it would be the opcode byte of two instructions (R56). -/
theorem family_eq_of_claims {op : Byte} {f g : Family} {i j : Instr} (hf : claim op f = some i)
    (hg : claim op g = some j) : f = g := by
  obtain ⟨hi, rfl⟩ := claim_eq_some_iff.mp hf
  obtain ⟨hj, rfl⟩ := claim_eq_some_iff.mp hg
  rw [opcode_injective (hi.trans hj.symm)]

/-! ## The registry -/

theorem mem_familyOrder (fam : Family) : fam ∈ familyOrder := by cases fam <;> decide

theorem opcode_of_findSome?_claim {order : List Family} {op : Byte} {i : Instr}
    (h : order.findSome? (claim op) = some i) : opcode i = op := by
  obtain ⟨fam, -, hclaim⟩ := List.exists_of_findSome?_eq_some h
  exact (claim_eq_some_iff.mp hclaim).1

/-- A registry in which every family is registered finds the instruction whose opcode byte it is given, whatever the
order of the families. -/
theorem findSome?_claim_eq_some_iff {order : List Family} (hall : ∀ fam, fam ∈ order) {op : Byte} {i : Instr} :
    order.findSome? (claim op) = some i ↔ opcode i = op := by
  refine ⟨opcode_of_findSome?_claim, fun hi => ?_⟩
  have hclaim : claim op i.family = some i := claim_eq_some_iff.mpr ⟨hi, rfl⟩
  obtain ⟨j, hj⟩ := Option.isSome_iff_exists.mp
    (List.findSome?_isSome_iff.mpr ⟨i.family, hall _, Option.isSome_of_eq_some hclaim⟩)
  rw [hj, opcode_injective ((opcode_of_findSome?_claim hj).trans hi.symm)]

/-- Settles O14: two claims of one byte come from one family, and every order in which all seven families stand finds
the same instruction. -/
theorem registrationOrderCannotBeObserved : Obligations.RegistrationOrderCannotBeObserved := by
  constructor
  · intro f g b hne
    cases hf : claim b f with
    | none => exact .inl rfl
    | some i =>
      refine .inr (Option.eq_none_iff_forall_ne_some.mpr fun j hg => ?_)
      exact hne (family_eq_of_claims hf hg)
  · intro order b hperm
    have hfind : order.findSome? (claim b) = familyOrder.findSome? (claim b) :=
      Option.ext fun i => (findSome?_claim_eq_some_iff fun fam => hperm.mem_iff.mpr (mem_familyOrder fam)).trans
        (findSome?_claim_eq_some_iff mem_familyOrder).symm
    rw [decode, decodeIn, decodeIn, hfind]

/-! ## The decoder of one byte -/

/-- A byte decodes to the instruction whose opcode byte it is, and to no other. -/
theorem decode_eq_ok_iff {op : Byte} {i : Instr} : decode op = .ok i ↔ opcode i = op := by
  rw [← findSome?_claim_eq_some_iff mem_familyOrder, decode, decodeIn]
  cases familyOrder.findSome? (claim op) <;> simp

theorem opcode_not_unassigned (i : Instr) : Claims.unassigned (opcode i) = false := by cases i <;> rfl

/-- The ranges of R57 leave no byte out: each of the 50 others is claimed by a family. -/
theorem claimed_of_not_unassigned :
    ∀ op : Byte, Claims.unassigned op = false → (familyOrder.findSome? (claim op)).isSome = true := by
  decide

/-- Everything decoding can do: the instruction of an opcode byte, or the error that echoes an unassigned byte (R57). -/
theorem decode_cases (op : Byte) :
    (∃ i, opcode i = op ∧ decode op = .ok i) ∨
    (Claims.unassigned op = true ∧ decode op = .error (.invalidOpcode op)) := by
  cases h : familyOrder.findSome? (claim op) with
  | some i =>
    have hi : opcode i = op := opcode_of_findSome?_claim h
    exact .inl ⟨i, hi, decode_eq_ok_iff.mpr hi⟩
  | none =>
    refine .inr ⟨?_, by rw [decode, decodeIn, h]⟩
    by_contra hassigned
    have hclaimed := claimed_of_not_unassigned op (Bool.eq_false_of_not_eq_true hassigned)
    rw [h] at hclaimed
    cases hclaimed

theorem decode_eq_error_iff {op : Byte} :
    decode op = .error (.invalidOpcode op) ↔ Claims.unassigned op = true := by
  obtain ⟨i, rfl, hdec⟩ | ⟨hun, hdec⟩ := decode_cases op
  · simp [hdec, opcode_not_unassigned]
  · simp [hdec, hun]

/-- Settles O11: the bytes are the opcode bytes of the named instructions, and two unassigned ones (R57). -/
theorem writtenOutBytesDecodeToTheirInstructions : Obligations.WrittenOutBytesDecodeToTheirInstructions :=
  ⟨decode_opcode .addAB, decode_opcode .addAN, decode_opcode .addAMemHl, decode_opcode .addHlHl,
    decode_opcode .addHlSp, decode_opcode .addSpE, decode_opcode .adcAE, decode_opcode .subL, decode_opcode .sbcAA,
    decode_opcode .cpH, decode_opcode .cpN, decode_eq_error_iff.mpr rfl, decode_eq_error_iff.mpr rfl⟩

/-- A tick whose opcode byte does not decode fails with the byte echoed (R196). -/
theorem step_of_decode_error {s : State} {op : Byte} (hop : s.mem.byteAt s.regs.pc = some op)
    (hdec : decode op = .error (.invalidOpcode op)) : step s = .fault (.invalidOpcode op) := by
  have hfetch : fetchDecode s = .raised (.invalidOpcode op) s.advancePc [s.regs.pc] := by
    simp [fetchDecode, fetch8_of_some hop, hdec, faultOfDecode]
  exact step_of_fetchDecode_raised hfetch

/-- Settles O12: the unassigned bytes are those that are no instruction's opcode byte, and a fetched one ends the
tick. -/
theorem unassignedBytesAreInvalidOpcodes : Obligations.UnassignedBytesAreInvalidOpcodes :=
  ⟨fun _ => decode_eq_error_iff, rfl, fun _ _ hop hun => step_of_decode_error hop (decode_eq_error_iff.mpr hun)⟩

/-! ## The field view -/

theorem decodeFields_opcode (i : Instr) : decodeFields (opcode i) = some (i.family, i.operand) := by cases i <;> rfl

theorem decodeFields_of_unassigned : ∀ op : Byte, Claims.unassigned op = true → decodeFields op = none := by decide

/-- Settles O13: the fields of an opcode byte are its instruction's family and operand, and an unassigned byte has no
reading by fields. -/
theorem bitFieldsAgreeWithTheTable : Obligations.BitFieldsAgreeWithTheTable := by
  intro b
  obtain ⟨i, rfl, hdec⟩ | ⟨hun, hdec⟩ := decode_cases b
  · rw [hdec, decodeFields_opcode]
  · rw [hdec, decodeFields_of_unassigned b hun]

/-! ## The decoded value -/

theorem value_wellFormed (i : Instr) : i.value.wellFormed = true := by cases i <;> rfl

theorem staticCycles_mem (fam : Family) (o : Operand) :
    staticCycles fam o = 4 ∨ staticCycles fam o = 8 ∨ staticCycles fam o = 16 := by
  unfold staticCycles
  split <;> simp

/-- The count of an instruction is the one that R59 gives for its family and operand kind. -/
theorem cycles_eq_staticCycles (i : Instr) : i.cycles = staticCycles i.family i.operand := by
  have h := value_wellFormed i
  rw [InstrValue.wellFormed, Bool.and_eq_true, beq_iff_eq] at h
  exact h.2

/-- Settles O17: the byte is the opcode byte of what it decodes to, whose count is R59's. -/
theorem decodedValuesAreWellFormed : Obligations.DecodedValuesAreWellFormed := by
  intro b i hdec
  refine ⟨decode_eq_ok_iff.mp hdec, value_wellFormed i, ?_⟩
  rw [Instr.value, cycles_eq_staticCycles]
  exact staticCycles_mem i.family i.operand

end Sys2Proof.Proofs
end

section
/-! PROOFS. The decoder of byte lists is the inverse of `encode` on well-formed instructions (R45, R54): one equation
for each format, and both round trips from them. -/

namespace Sys2Proof.Proofs
open Sys2Proof Sys2Proof.Machine

/-! ## The two formats -/

@[simp] theorem wellFormed_with_trailing {i : Instr} {n : Byte} :
    ({ instr := i, trailing := some n } : FullInstr).wellFormed = true ↔ i.operand.hasTrailing = true :=
  beq_iff_eq.trans eq_comm

@[simp] theorem wellFormed_without_trailing {i : Instr} :
    ({ instr := i, trailing := none } : FullInstr).wellFormed = true ↔ i.operand.hasTrailing = false :=
  beq_iff_eq.trans eq_comm

/-- The two-byte formats `OP_N` and `OP_E` take the byte after the opcode byte. -/
theorem decodeBytes_of_trailing {op n : Byte} {i : Instr} {rest : List Byte} (hdec : decode op = .ok i)
    (htrailing : i.operand.hasTrailing = true) :
    decodeBytes (op :: n :: rest) = .ok ({ instr := i, trailing := some n }, rest) := by
  simp [decodeBytes, hdec, htrailing]

/-- The one-byte format `OP` takes nothing after the opcode byte. -/
theorem decodeBytes_of_no_trailing {op : Byte} {i : Instr} {rest : List Byte} (hdec : decode op = .ok i)
    (htrailing : i.operand.hasTrailing = false) :
    decodeBytes (op :: rest) = .ok ({ instr := i, trailing := none }, rest) := by
  simp [decodeBytes, hdec, htrailing]

/-! ## The round trips -/

theorem decodeBytes_encode {f : FullInstr} (h : f.wellFormed = true) (rest : List Byte) :
    decodeBytes (encode f ++ rest) = .ok (f, rest) := by
  obtain ⟨i, trailing⟩ := f
  cases trailing with
  | some n => exact decodeBytes_of_trailing (decode_opcode i) (wellFormed_with_trailing.mp h)
  | none => exact decodeBytes_of_no_trailing (decode_opcode i) (wellFormed_without_trailing.mp h)

theorem encode_length {f : FullInstr} (h : f.wellFormed = true) : (encode f).length = f.instr.length := by
  obtain ⟨i, trailing⟩ := f
  cases trailing with
  | some n => simp [encode, Instr.length, wellFormed_with_trailing.mp h]
  | none => simp [encode, Instr.length, wellFormed_without_trailing.mp h]

/-- Settles O15: each format is read back by its own equation, since an opcode byte decodes to its instruction. -/
theorem decodeReadsBackWhatEncodeWrote : Obligations.DecodeReadsBackWhatEncodeWrote :=
  fun _ rest h => ⟨decodeBytes_encode h rest, encode_length h⟩

/-- Settles O16: the opcode byte is that of its instruction, whose format says whether the byte after it was taken. -/
theorem encodeWritesBackWhatDecodeRead : Obligations.EncodeWritesBackWhatDecodeRead := by
  intro bytes rest f h
  cases bytes with
  | nil => cases h
  | cons op tail =>
    obtain ⟨i, rfl, hdec⟩ | ⟨-, hdec⟩ := decode_cases op
    · cases htrailing : i.operand.hasTrailing with
      | false =>
        cases (decodeBytes_of_no_trailing hdec htrailing).symm.trans h
        exact ⟨wellFormed_without_trailing.mpr htrailing, rfl⟩
      | true =>
        cases tail with
        | nil => simp [decodeBytes, hdec, htrailing] at h
        | cons n tail =>
          cases (decodeBytes_of_trailing hdec htrailing).symm.trans h
          exact ⟨wellFormed_with_trailing.mpr htrailing, rfl⟩
    · simp [decodeBytes, hdec] at h

end Sys2Proof.Proofs
end

section
/-! PROOFS. What the operands become (R53) and what no operand names as a destination (R61): the values of the
immediates, and the registers that a whole run keeps. -/

namespace Sys2Proof.Proofs
open Sys2Proof Sys2Proof.Machine

/-! ## Immediates -/

/-- The 16-bit pattern of a signed byte: `0xFF` stands above a byte with bit 7 set. -/
theorem sext16_toNat (e : Byte) : (sext16 e).toNat = if e.toNat < 0x80 then e.toNat else 0xFF00 + e.toNat := by
  have he := e.isLt
  rw [sext16, BitVec.toNat_signExtend, BitVec.toNat_setWidth, BitVec.msb_eq_decide]
  simp only [decide_eq_true_eq]
  split <;> split <;> omega

theorem sext16_toInt (e : Byte) : (sext16 e).toInt = e.toInt := BitVec.toInt_signExtend_of_le (by decide)

/-- Settles O40: both immediates are one fetch, `ImmSigned8` with its byte sign-extended. -/
theorem immediatesBecomeValues : Obligations.ImmediatesBecomeValues :=
  ⟨fun _ _ fam h => ⟨fetch8_of_some h, resolveS8_of_some fam h⟩, fun e => ⟨sext16_toNat e, sext16_toInt e⟩,
    rfl, rfl, rfl, rfl⟩

/-! ## Registers that no instruction sets -/

/-- What every completed tick keeps, a whole run keeps. -/
theorem runTicks_last_keeps {α : Type} {view : State → α}
    (hstep : ∀ {s t : State}, step s = .next t → view t = view s) (n : Nat) (s : State) :
    view (runTicks n s).last = view s := by
  induction n generalizing s with
  | zero => rfl
  | succ n ih =>
    obtain ⟨t, ht⟩ | ⟨e, he⟩ := step_next_or_fault s
    · rw [runTicks_of_next ht]
      exact (ih t).trans (hstep ht)
    · rw [runTicks_of_fault he]

/-- The registers that are an operand at most, never a destination (R61). -/
def sourceRegisters (s : State) : Byte × Byte × Byte × Byte := (s.regs.b, s.regs.c, s.regs.d, s.regs.e)

theorem sourceRegisters_of_step_next {s t : State} (h : step s = .next t) : sourceRegisters t = sourceRegisters s := by
  obtain ⟨hb, hc, hd, he, -⟩ := onlyAccumulatorFlagsHlSpAndPcEverChange s t h
  rw [sourceRegisters, sourceRegisters, hb, hc, hd, he]

/-- Settles O34: every tick keeps the source registers and the memory, so a run does. -/
theorem runsKeepTheLaunchValuesOfBCDE : Obligations.RunsKeepTheLaunchValuesOfBCDE := by
  intro n s
  have h := runTicks_last_keeps sourceRegisters_of_step_next n s
  simp only [sourceRegisters, Prod.mk.injEq] at h
  obtain ⟨hb, hc, hd, he⟩ := h
  exact ⟨hb, hc, hd, he, runTicks_last_mem n s⟩

end Sys2Proof.Proofs
end

section
/-! PROOFS. The arithmetic primitives by their formulas on numbers (spec/40_alu_primitives.md): the two primitives of any
width once, their instances at widths 8 and 16, and the closed forms of the two primitives with a carry. -/

namespace Sys2Proof.Proofs
open Sys2Proof Sys2Proof.Machine

/-! ## Every width -/

theorem beq_zero_eq_decide {w : Nat} (v : BitVec w) : (v == 0) = decide (v.toNat = 0) := by
  rw [Bool.eq_iff_iff, beq_iff_eq, decide_eq_true_iff]
  exact BitVec.toNat_eq

/-- R67 and R68 on numbers. -/
theorem addWidth_flags {w : Nat} (a b : BitVec w) :
    (addWidth a b).flags =
      { z := decide ((a.toNat + b.toNat) % 2 ^ w = 0), n := false
        h := decide ((a.toNat &&& (halfMask w).toNat) + (b.toNat &&& (halfMask w).toNat) > (halfMask w).toNat)
        c := decide (a.toNat + b.toNat > 2 ^ w - 1) } := by
  simp only [addWidth, beq_zero_eq_decide, BitVec.toNat_add, BitVec.toNat_and]

theorem addWidth_comm {w : Nat} (a b : BitVec w) : addWidth a b = addWidth b a := by
  simp only [addWidth, BitVec.add_comm a b, Nat.add_comm a.toNat, Nat.add_comm (a &&& halfMask w).toNat]

theorem subWidth_value_toNat {w : Nat} (a b : BitVec w) :
    (subWidth a b).value.toNat = (2 ^ w + a.toNat - b.toNat) % 2 ^ w := by
  rw [subWidth, BitVec.toNat_sub, Nat.sub_add_comm b.isLt.le]

/-- R69 and R70 on numbers. -/
theorem subWidth_flags {w : Nat} (a b : BitVec w) :
    (subWidth a b).flags =
      { z := decide ((2 ^ w + a.toNat - b.toNat) % 2 ^ w = 0), n := true
        h := decide ((a.toNat &&& (halfMask w).toNat) < (b.toNat &&& (halfMask w).toNat))
        c := decide (a.toNat < b.toNat) } := by
  rw [← subWidth_value_toNat]
  simp only [subWidth, beq_zero_eq_decide, BitVec.toNat_and]

/-- A wrapped difference is zero exactly when its operands are equal. -/
theorem subWidth_zero {w : Nat} (a b : BitVec w) : (subWidth a b).flags.z = decide (a = b) := by
  rw [Bool.eq_iff_iff, decide_eq_true_iff]
  exact beq_iff_eq.trans sub_eq_zero

/-- R72 on numbers. -/
theorem compareWidth_eq {w : Nat} (a b : BitVec w) :
    compareWidth a b =
      { z := decide (a = b), n := true
        h := decide ((a.toNat &&& (halfMask w).toNat) < (b.toNat &&& (halfMask w).toNat))
        c := decide (a.toNat < b.toNat) } := by
  rw [← subWidth_zero]
  simp only [compareWidth, subWidth, BitVec.toNat_and]

/-! ## The primitives of R67 to R70 and R72 -/

/-- Settles O1: `addWidth` at widths 8 and 16. -/
theorem addPrimitivesFollowTheirFormulas : Obligations.AddPrimitivesFollowTheirFormulas :=
  ⟨fun a b => ⟨BitVec.toNat_add a b, addWidth_flags a b, addWidth_comm a b⟩,
    fun a b => ⟨BitVec.toNat_add a b, addWidth_flags a b⟩⟩

/-- Settles O2: `subWidth` at widths 8 and 16, and its flags alone. -/
theorem subtractPrimitivesFollowTheirFormulas : Obligations.SubtractPrimitivesFollowTheirFormulas :=
  ⟨fun a b => ⟨subWidth_value_toNat a b, subWidth_flags a b, by rw [sub8, subWidth_zero, decide_eq_true_iff]⟩,
    fun a b => ⟨subWidth_value_toNat a b, subWidth_flags a b⟩, fun a b => ⟨rfl, compareWidth_eq a b⟩⟩

/-! ## The carry or borrow of two steps -/

/-- One of two successive sums passes the width exactly when the three-operand sum does. -/
theorem carry_of_either_sum (m x y c : Nat) : x + c > m ∨ (x + c) % (m + 1) + y > m ↔ x + y + c > m := by
  obtain hfits | hpasses := Nat.lt_or_ge (x + c) (m + 1)
  · rw [Nat.mod_eq_of_lt hfits]
    omega
  · omega

/-- One of two successive differences borrows exactly when the three-operand difference does. -/
theorem borrow_of_either_difference {m x : Nat} (hx : x < m) (y c : Nat) :
    x < y ∨ (m + x - y) % m < c ↔ x < y + c := by
  obtain hborrow | hfits := Nat.lt_or_ge x y
  · omega
  · rw [Nat.add_sub_assoc hfits, Nat.add_mod_left, Nat.mod_eq_of_lt (by omega)]
    omega

/-! ## The primitives with a carry: R74 and R75 -/

theorem and_halfMask8_toNat (a : Byte) : (a &&& halfMask 8).toNat = a.toNat % 16 :=
  (BitVec.toNat_and a _).trans (Nat.and_two_pow_sub_one_eq_mod a.toNat 4)

theorem carryValue8_toNat (c : Bool) : (carryValue 8 c).toNat = c.toNat := by cases c <;> rfl

theorem add8_value_toNat (a b : Byte) : (add8 a b).value.toNat = (a.toNat + b.toNat) % 256 := BitVec.toNat_add a b

theorem add8_halfCarry (a b : Byte) : (add8 a b).flags.h = decide (a.toNat % 16 + b.toNat % 16 > 15) := by
  rw [← and_halfMask8_toNat, ← and_halfMask8_toNat]
  rfl

theorem add8_carry (a b : Byte) : (add8 a b).flags.c = decide (a.toNat + b.toNat > 255) := rfl

theorem adc8_value_toNat (a b : Byte) (c : Bool) :
    (adc8 a b c).value.toNat = (a.toNat + b.toNat + c.toNat) % 256 := by
  simp only [adc8, add8_value_toNat, carryValue8_toNat]
  omega

theorem adc8_halfCarry (a b : Byte) (c : Bool) :
    (adc8 a b c).flags.h = decide (a.toNat % 16 + b.toNat % 16 + c.toNat > 15) := by
  have hc := c.toNat_le
  have hnibble : (a.toNat + c.toNat) % 256 % 16 = (a.toNat % 16 + c.toNat) % 16 := by omega
  have hbit : c.toNat % 16 = c.toNat := by omega
  simp only [adc8, add8_halfCarry, add8_value_toNat, carryValue8_toNat, hnibble, hbit, ← Bool.decide_or]
  exact decide_eq_decide.mpr (carry_of_either_sum 15 _ _ _)

theorem adc8_carry (a b : Byte) (c : Bool) :
    (adc8 a b c).flags.c = decide (a.toNat + b.toNat + c.toNat > 255) := by
  simp only [adc8, add8_carry, add8_value_toNat, carryValue8_toNat, ← Bool.decide_or]
  exact decide_eq_decide.mpr (carry_of_either_sum 255 _ _ _)

theorem adc8_flags (a b : Byte) (c : Bool) :
    (adc8 a b c).flags =
      { z := decide ((a.toNat + b.toNat + c.toNat) % 256 = 0), n := false
        h := decide (a.toNat % 16 + b.toNat % 16 + c.toNat > 15)
        c := decide (a.toNat + b.toNat + c.toNat > 255) } := by
  rw [← adc8_value_toNat, ← beq_zero_eq_decide, ← adc8_halfCarry, ← adc8_carry]
  rfl

/-- Adding a clear carry is no step: its sum is the accumulator, with neither carry. -/
theorem adc8_false (a b : Byte) : adc8 a b false = add8 a b := by
  have hvalue : (add8 a (carryValue 8 false)).value = a := BitVec.add_zero a
  have hhalf : (add8 a (carryValue 8 false)).flags.h = false := by
    rw [add8_halfCarry, carryValue8_toNat]
    exact decide_eq_false (by simp only [Bool.toNat_false]; omega)
  have hcarry : (add8 a (carryValue 8 false)).flags.c = false := by
    rw [add8_carry, carryValue8_toNat]
    exact decide_eq_false (by have := a.isLt; simp only [Bool.toNat_false]; omega)
  simp only [adc8, hvalue, hhalf, hcarry, Bool.false_or]

/-- Settles O3: of nibbles and of bytes, a carry of either step is the carry of the whole sum (`carry_of_either_sum`). -/
theorem addWithCarryHasTheClosedForm : Obligations.AddWithCarryHasTheClosedForm :=
  fun a b c => ⟨adc8_value_toNat a b c, adc8_flags a b c, adc8_false a b⟩

theorem sbc8_value_toNat (a b : Byte) (c : Bool) :
    (sbc8 a b c).value.toNat = (512 + a.toNat - b.toNat - c.toNat) % 256 := by
  have ha := a.isLt
  have hb := b.isLt
  have hc := c.toNat_le
  simp only [sbc8, BitVec.toNat_sub, carryValue8_toNat]
  omega

theorem sbc8_halfCarry (a b : Byte) (c : Bool) :
    (sbc8 a b c).flags.h = decide (a.toNat % 16 < b.toNat % 16 + c.toNat) := by
  simp only [sbc8, and_halfMask8_toNat]

theorem sbc8_carry (a b : Byte) (c : Bool) : (sbc8 a b c).flags.c = decide (a.toNat < b.toNat + c.toNat) := by
  have hdiff : (a - b).toNat = (256 + a.toNat - b.toNat) % 256 := subWidth_value_toNat a b
  simp only [sbc8, hdiff, ← Bool.decide_or]
  exact decide_eq_decide.mpr (borrow_of_either_difference a.isLt _ _)

theorem sbc8_flags (a b : Byte) (c : Bool) :
    (sbc8 a b c).flags =
      { z := decide ((512 + a.toNat - b.toNat - c.toNat) % 256 = 0), n := true
        h := decide (a.toNat % 16 < b.toNat % 16 + c.toNat)
        c := decide (a.toNat < b.toNat + c.toNat) } := by
  rw [← sbc8_value_toNat, ← beq_zero_eq_decide, ← sbc8_halfCarry, ← sbc8_carry]
  rfl

/-- Taking a clear carry away is no step: nothing is below 0, so it never borrows. -/
theorem sbc8_false (a b : Byte) : sbc8 a b false = sub8 a b := by
  have hvalue : a - b - carryValue 8 false = a - b := BitVec.sub_zero (a - b)
  simp only [sbc8, sub8, subWidth, hvalue, Bool.toNat_false, Nat.add_zero, Nat.not_lt_zero, decide_false,
    Bool.or_false]

/-- Settles O4: a borrow of either step is the borrow of the whole difference (`borrow_of_either_difference`). -/
theorem subtractWithCarryHasTheClosedForm : Obligations.SubtractWithCarryHasTheClosedForm :=
  fun a b c => ⟨sbc8_value_toNat a b c, sbc8_flags a b c, sbc8_false a b⟩

end Sys2Proof.Proofs
end

section
/-! PROOFS. The tick as spec/41_decode_execute.md writes it (R85 to R93, R97 to R99): the fetch, `execute` on an
instruction value, and their agreement with `step`. -/

namespace Sys2Proof.Proofs
open Sys2Proof Sys2Proof.Machine

/-! ## The fetch -/

/-- The advance of `PC` on numbers (R20). -/
theorem nextPc_eq (pc : Word) : nextPc pc = BitVec.ofNat 16 ((pc.toNat + 1) % 65536) := by
  refine BitVec.eq_of_toNat_eq ?_
  rw [nextPc, BitVec.toNat_add, BitVec.toNat_ofNat, Nat.mod_mod]
  rfl

/-- Settles O10: the two answers of the fetch, with the advance of `PC` on numbers. -/
theorem fetchReadsThenAdvances : Obligations.FetchReadsThenAdvances := by
  refine ⟨fun s b h => ?_, fun _ => fetch8_of_none⟩
  rw [fetch8_of_some h, ← nextPc_eq]
  rfl

theorem fetchDecode_of_decode {s : State} {op : Byte} {i : Instr} (hop : s.mem.byteAt s.regs.pc = some op)
    (hdec : decode op = .ok i) : fetchDecode s = .done i s.advancePc [s.regs.pc] := by
  simp [fetchDecode, fetch8_of_some hop, hdec]

/-- Settles O18: the fetch and decode are done, and the state they leave is the one with `PC` advanced. -/
theorem stepRunsTheDecodedInstruction : Obligations.StepRunsTheDecodedInstruction := by
  intro s op i hop hdec
  rw [step, fetchDecode_of_decode hop hdec]
  rfl

/-! ## `execute` -/

theorem execute_of_handle_done {v : InstrValue} {s t : State} {rs : List Addr}
    (h : handle v.family v.operand s = .done () t rs) : execute v s = .done v.cycles t rs := by
  rw [execute, h, Ran.andThen_done, Ran.afterReads_done, List.append_nil]

theorem execute_of_handle_raised {v : InstrValue} {s t : State} {e : Fault} {rs : List Addr}
    (h : handle v.family v.operand s = .raised e t rs) : execute v s = .raised e t rs := by
  rw [execute, h, Ran.andThen_raised]

/-- `execute` ends as its family's handler does, with the value's static count (R93). -/
theorem outcomeOfTick_execute (v : InstrValue) (s : State) :
    outcomeOfTick (execute v s) = (handle v.family v.operand s).outcome v.cycles := by
  cases h : handle v.family v.operand s with
  | done u t rs => rw [execute_of_handle_done h, outcomeOfTick, Ran.outcome_done]
  | raised e t rs => rw [execute_of_handle_raised h, outcomeOfTick, Ran.outcome_raised]

/-- The outcome shows no reads. -/
theorem outcomeOfTick_afterReads (rs : List Addr) (r : Ran Byte) :
    outcomeOfTick (r.afterReads rs) = outcomeOfTick r := by
  cases r <;> rfl

/-- Settles O19: after the common fetch and decode both run the handler of the instruction's family, `step` by the arm
of the instruction (`exec_eq_handle`) and `tick` by its value. -/
theorem stepIsTheTickOfTheSpec : Obligations.StepIsTheTickOfTheSpec := by
  intro s
  cases h : fetchDecode s with
  | done i s1 rs =>
    calc step s
        = (handle i.family i.operand s1).outcome i.cycles := step_of_fetchDecode_done h
      _ = outcomeOfTick (execute i.value s1) := (outcomeOfTick_execute i.value s1).symm
      _ = outcomeOfTick ((execute i.value s1).afterReads rs) := (outcomeOfTick_afterReads rs _).symm
      _ = outcomeOfTick (tick s) := by rw [tick, h, Ran.andThen_done]
  | raised e s1 rs => rw [step_of_fetchDecode_raised h, tick_of_fetchDecode_raised h, outcomeOfTick]

/-! ## The operand matrix of R92 -/

/-- The matrix holds a value only in cells that the decode tables assign, and never for `Memory(HL)`. -/
theorem assigns_of_accepts {fam : Family} {o : Operand} (h : Claims.accepts fam o = true) :
    fam.assigns o = true ∧ o ≠ .memory .hl := by
  cases fam with
  | add8 | adc | sub | sbc | cp =>
    cases o with
    | register8 | imm8 => exact ⟨rfl, nofun⟩
    | register16 | imm16 | immSigned8 | memory => cases h
  | add16 =>
    cases o with
    | register16 => exact ⟨rfl, nofun⟩
    | register8 | imm8 | imm16 | immSigned8 | memory => cases h
  | addsp =>
    cases o with
    | immSigned8 => exact ⟨rfl, nofun⟩
    | register8 | register16 | imm8 | imm16 | memory => cases h

theorem andThen_of_eq_raised {α β : Type} {r : Ran α} {e : Fault} {s : State} {rs : List Addr}
    {next : α → State → Ran β} (h : r = .raised e s rs) : r.andThen next = .raised e s rs := by
  rw [h, Ran.andThen_raised]

/-- Where the matrix holds `InvalidOperand`, no operand resolution of the family applies (R99). -/
theorem handle_of_not_accepts {fam : Family} {o : Operand} (h : Claims.accepts fam o = false) (s : State) :
    handle fam o s = .raised (.invalidOperand o fam) s [] := by
  cases fam with
  | add8 | adc | sub | sbc | cp =>
    have hreg : ∀ w, o ≠ .register8 w := by rintro w rfl; cases h
    have himm : o ≠ .imm8 := by rintro rfl; cases h
    exact andThen_of_eq_raised (resolve8_other hreg himm _ s)
  | add16 =>
    have hreg : ∀ p, o ≠ .register16 p := by rintro p rfl; cases h
    exact andThen_of_eq_raised (resolve16_other hreg .add16 s)
  | addsp =>
    have himm : o ≠ .immSigned8 := by rintro rfl; cases h
    exact andThen_of_eq_raised (resolveS8_other himm .addsp s)

/-- Settles O20: a refused kind ends in its resolution; an accepted one is done, or its immediate cannot be read. -/
theorem operandKindsAreAcceptedAsTheMatrixSays : Obligations.OperandKindsAreAcceptedAsTheMatrixSays := by
  intro v s
  constructor
  · intro hrefused
    rw [execute_of_handle_raised (handle_of_not_accepts hrefused s)]
    exact ⟨rfl, rfl⟩
  · intro haccepted
    obtain ⟨hassigns, hmem⟩ := assigns_of_accepts haccepted
    obtain ⟨ho, -⟩ | ⟨-, hnone, hh⟩ | ⟨-, t, rs, hh, -, -⟩ := handle_cases hassigns s
    · exact absurd ho hmem
    · exact .inr ⟨hnone, by rw [execute_of_handle_raised hh, Ran.answer]⟩
    · exact .inl (by rw [execute_of_handle_done hh, Ran.answer])

/-! ## The `(HL)` forms -/

/-- Each row is an instruction's opcode byte and family, and its operand is `Memory(HL)` (R97). -/
theorem memoryForms_row : ∀ p ∈ Claims.memoryForms,
    opcode p.2.1 = p.1 ∧ p.2.1.operand = .memory .hl ∧ p.2.1.family = p.2.2 := by
  decide

/-- Settles O23: the byte is the form's opcode byte, and every handler refuses `Memory(HL)` before any read. -/
theorem memoryFormsAlwaysFault : Obligations.MemoryFormsAlwaysFault := by
  rintro ⟨op, i, fam⟩ hp
  obtain ⟨hop, ho, rfl⟩ : opcode i = op ∧ i.operand = .memory .hl ∧ i.family = fam := memoryForms_row _ hp
  have hdec : decode op = .ok i := decode_eq_ok_iff.mpr hop
  have hhandle (s : State) :
      handle i.family i.operand s = .raised (.invalidOperand (.memory .hl) i.family) s [] := by
    rw [ho]
    exact handle_memory i.family s
  have hexec (s : State) : exec i s = .fault (.invalidOperand (.memory .hl) i.family) := by
    rw [exec_eq_handle, hhandle, Ran.outcome_raised]
  refine ⟨hdec, hexec, fun s hs => ?_, fun s => ?_⟩
  · rw [stepRunsTheDecodedInstruction s op i hs hdec]
    exact hexec _
  · exact congrArg Ran.reads (execute_of_handle_raised (v := i.value) (hhandle s))

end Sys2Proof.Proofs
end

section
/-! PROOFS. There is no control transfer (R101, R102): how far one completed tick moves `PC` and what it returns, and
the same for a run. -/

namespace Sys2Proof.Proofs
open Sys2Proof Sys2Proof.Machine

/-! ## One tick -/

/-- Settles O24: the completed case of `step_cases` on numbers. -/
theorem pcAdvancesByTheLength : Obligations.PcAdvancesByTheLength := by
  intro s t h
  obtain ⟨op, i, hop, hdec, -, -, hpc, -⟩ := step_next h
  refine ⟨op, i, hop, hdec, ?_⟩
  rw [hpc, BitVec.toNat_add, BitVec.toNat_ofNat, Nat.add_mod_mod]

theorem instr_length_bounds (i : Instr) : 1 ≤ i.length ∧ i.length ≤ 2 := by
  unfold Instr.length
  split <;> decide

/-- The counts that a completed tick can return (R225). -/
def IsTickCount (c : Byte) : Prop := c = 4 ∨ c = 8 ∨ c = 16

theorem exists_count_of_step_next {s t : State} (h : step s = .next t) :
    ∃ c, t.lastCycles = some c ∧ IsTickCount c := by
  obtain ⟨op, i, -, -, -, -, -, hcount⟩ := step_next h
  refine ⟨i.cycles, hcount, ?_⟩
  rw [cycles_eq_staticCycles]
  exact staticCycles_mem i.family i.operand

/-! ## Runs -/

/-- A completed tick puts one count in front of the rest of the run. -/
theorem runTicks_cons {s t : State} (h : step s = .next t) (n : Nat) :
    ∃ c, IsTickCount c ∧ runTicks (n + 1) s = { runTicks n t with counts := c :: (runTicks n t).counts } := by
  obtain ⟨c, hc, hcount⟩ := exists_count_of_step_next h
  refine ⟨c, hcount, ?_⟩
  rw [runTicks_of_next h, hc]
  rfl

/-- What holds of a run without a completed tick, and is kept when a tick is put in front of a run, holds of every
run. -/
theorem runTicks_induction {P : State → Run → Prop} (nil : ∀ s e, P s { counts := [], last := s, ending := e })
    (cons : ∀ {s t c r}, step s = .next t → IsTickCount c → P t r → P s { r with counts := c :: r.counts })
    (n : Nat) (s : State) : P s (runTicks n s) := by
  induction n generalizing s with
  | zero => exact nil s .ticksDone
  | succ n ih =>
    obtain ⟨t, ht⟩ | ⟨e, he⟩ := step_next_or_fault s
    · obtain ⟨c, hc, hrun⟩ := runTicks_cons ht n
      rw [hrun]
      exact cons ht hc (ih t)
    · rw [runTicks_of_fault he]
      exact nil s (.fault e)

theorem runTicks_counts_length_of_safeFor {n : Nat} {s : State} (h : SafeFor n s) :
    (runTicks n s).counts.length = n := by
  induction n generalizing s with
  | zero => rfl
  | succ n ih =>
    obtain ⟨t, ht, hrest⟩ := safeFor_succ.mp h
    obtain ⟨c, -, hrun⟩ := runTicks_cons ht n
    rw [hrun, List.length_cons, ih hrest]

theorem isTickCount_of_mem_runTicks_counts (n : Nat) (s : State) : ∀ c ∈ (runTicks n s).counts, IsTickCount c := by
  refine runTicks_induction (P := fun _ r => ∀ c ∈ r.counts, IsTickCount c) (fun _ _ => nofun) ?_ n s
  intro s t c r _ hc hrest
  exact List.forall_mem_cons.mpr ⟨hc, hrest⟩

/-- From `s` to the end of `r`, each completed tick moved `PC` forward by one or two bytes, wrapping at `0xFFFF`. -/
def MovesForward (s : State) (r : Run) : Prop :=
  ∃ d, r.counts.length ≤ d ∧ d ≤ 2 * r.counts.length ∧
    r.last.regs.pc.toNat = (s.regs.pc.toNat + d) % 65536

theorem MovesForward.cons {s t : State} {c : Byte} {r : Run} (h : step s = .next t) (hr : MovesForward t r) :
    MovesForward s { r with counts := c :: r.counts } := by
  obtain ⟨_, i, -, -, hpc⟩ := pcAdvancesByTheLength s t h
  obtain ⟨hlower, hupper⟩ := instr_length_bounds i
  obtain ⟨d, hd, hd', hlast⟩ := hr
  refine ⟨i.length + d, ?_, ?_, ?_⟩
  · rw [List.length_cons]
    omega
  · rw [List.length_cons]
    omega
  · rw [hlast, hpc, Nat.mod_add_mod, Nat.add_assoc]

theorem runTicks_movesForward (n : Nat) (s : State) : MovesForward s (runTicks n s) :=
  runTicks_induction (fun s _ => ⟨0, Nat.le_refl 0, Nat.le_refl 0, (Nat.mod_eq_of_lt s.regs.pc.isLt).symm⟩)
    (fun ht _ hrest => hrest.cons ht) n s

/-- Settles O35: the bounds of one tick, added up over the run. -/
theorem runsAreStraightLine : Obligations.RunsAreStraightLine :=
  fun n s => ⟨runTicks_counts_length_le n s, runTicks_counts_length_of_safeFor,
    isTickCount_of_mem_runTicks_counts n s, runTicks_movesForward n s⟩

end Sys2Proof.Proofs
end

section
/-! PROOFS. The handlers of the 8-bit families by the effects of their rules (R105, R135, R150, R165, R180): each effect
is the result of the family's primitive written back, and the operand step decides what it is applied to. -/

namespace Sys2Proof.Proofs
open Sys2Proof Sys2Proof.Machine Sys2Proof.Claims

/-! ## `add8` and `sub8` in integer arithmetic -/

theorem add8_flags (a b : Byte) :
    (add8 a b).flags =
      { z := decide ((a.toNat + b.toNat) % 256 = 0), n := false
        h := decide (a.toNat % 16 + b.toNat % 16 > 15), c := decide (a.toNat + b.toNat > 255) } := by
  rw [← add8_value_toNat, ← beq_zero_eq_decide, ← add8_halfCarry, ← add8_carry]
  rfl

theorem sub8_value_toNat (a b : Byte) : (sub8 a b).value.toNat = (256 + a.toNat - b.toNat) % 256 :=
  subWidth_value_toNat a b

theorem sub8_flags (a b : Byte) :
    (sub8 a b).flags =
      { z := decide (a.toNat = b.toNat), n := true, h := decide (a.toNat % 16 < b.toNat % 16)
        c := decide (a.toNat < b.toNat) } := by
  simp only [← and_halfMask8_toNat, BitVec.toNat_inj, ← subWidth_zero]
  rfl

/-! ## The effects are the results of the primitives, written back -/

theorem setReg8_a_setFlags (v : Byte) (fl : FlagSet) (s : State) :
    (s.setReg8 .a v).setFlags fl = writing8 v.toNat fl s := by
  rw [writing8, BitVec.ofNat_toNat, BitVec.setWidth_eq]
  rfl

theorem addEffect_eq (v : Byte) (s : State) :
    addEffect v s = writing8 (add8 s.regs.a v).value.toNat (add8 s.regs.a v).flags s := by
  rw [add8_value_toNat, add8_flags]
  rfl

theorem adcEffect_eq (v : Byte) (s : State) :
    adcEffect v s =
      writing8 (adc8 s.regs.a v s.flags.c).value.toNat (adc8 s.regs.a v s.flags.c).flags s := by
  rw [adc8_value_toNat, adc8_flags]
  rfl

theorem subEffect_eq (v : Byte) (s : State) :
    subEffect v s = writing8 (sub8 s.regs.a v).value.toNat (sub8 s.regs.a v).flags s := by
  rw [sub8_value_toNat, sub8_flags]
  rfl

theorem sbcEffect_eq (v : Byte) (s : State) :
    sbcEffect v s =
      writing8 (sbc8 s.regs.a v s.flags.c).value.toNat (sbc8 s.regs.a v s.flags.c).flags s := by
  rw [sbc8_value_toNat, sbc8_flags]
  rfl

theorem cpEffect_eq (v : Byte) (s : State) :
    cpEffect v s = writing8 s.regs.a.toNat (cp8 s.regs.a v) s := by
  rw [cp8, compareWidth, ← sub8, sub8_flags]
  rfl

/-! ## An 8-bit family's handler by its effect -/

/-- The handler of a family resolves its operand as an 8-bit one and then has the effect on the resolved value. -/
def AppliesTo8 (fam : Family) (effect : Byte → State → State) : Prop :=
  ∀ o s, handle fam o s = (resolve8 o fam s).andThen fun v s1 => .done () (effect v s1) []

/-- An effect neither reads `PC` nor writes it. -/
def IgnoresPc (effect : State → State) : Prop := ∀ pc s, effect (withPc pc s) = withPc pc (effect s)

theorem appliesTo8_add8 : AppliesTo8 .add8 addEffect := by
  intro o s
  simp only [addEffect_eq, ← setReg8_a_setFlags]
  rfl

theorem appliesTo8_adc : AppliesTo8 .adc adcEffect := by
  intro o s
  simp only [adcEffect_eq, ← setReg8_a_setFlags]
  rfl

theorem appliesTo8_sub : AppliesTo8 .sub subEffect := by
  intro o s
  simp only [subEffect_eq, ← setReg8_a_setFlags]
  rfl

theorem appliesTo8_sbc : AppliesTo8 .sbc sbcEffect := by
  intro o s
  simp only [sbcEffect_eq, ← setReg8_a_setFlags]
  rfl

theorem appliesTo8_cp : AppliesTo8 .cp cpEffect := by
  intro o s
  simp only [cpEffect_eq, ← setReg8_a_setFlags]
  rfl

/-- Such a handler follows R92: one case of the operand step for each clause. -/
theorem AppliesTo8.handler8 {fam : Family} {effect : Byte → State → State} (h : AppliesTo8 fam effect)
    (hpc : ∀ v, IgnoresPc (effect v)) : Handler8 fam effect := by
  refine ⟨fun s w => ?_, fun s n hn => ?_, fun s hn => ?_, fun s o hreg himm => ?_⟩
  · rw [h, resolve8_register8, Ran.andThen_done, Ran.afterReads_done, List.append_nil, State.reg8]
  · rw [h, resolve8_imm8, fetch8_of_some hn, Ran.andThen_done, Ran.afterReads_done, List.append_nil, ← hpc]
    rfl
  · rw [h, resolve8_imm8, fetch8_of_none hn, Ran.andThen_raised, Ran.answer]
  · rw [h, resolve8_other hreg himm, Ran.andThen_raised]
    exact ⟨rfl, rfl⟩

theorem addEffect_ignoresPc (v : Byte) : IgnoresPc (addEffect v) := fun _ _ => rfl

/-- Settles O41: the ADD8 handler applies `addEffect`, whose flags are those of `add8`. -/
theorem addHandlerFollowsItsRule : Obligations.AddHandlerFollowsItsRule :=
  appliesTo8_add8.handler8 addEffect_ignoresPc

end Sys2Proof.Proofs
end

section
/-! PROOFS. An instruction by its family's handler: what `exec` and a tick answer follows from what the handler does on
the instruction's operand (R85, R93, R106 to R114). -/

namespace Sys2Proof.Proofs
open Sys2Proof Sys2Proof.Machine Sys2Proof.Claims

/-! ## What `exec` and a tick answer -/

theorem exec_of_handle_done {i : Instr} {s t : State} {rs : List Addr}
    (h : handle i.family i.operand s = .done () t rs) : exec i s = .next (returning i.cycles t) := by
  rw [exec_eq_handle, h]
  rfl

theorem exec_of_handle_error {i : Instr} {s : State} {e : Fault}
    (h : (handle i.family i.operand s).answer = .error e) : exec i s = .fault e := by
  rw [exec_eq_handle]
  cases hh : handle i.family i.operand s with
  | done u t rs =>
    rw [hh] at h
    cases h
  | raised e' t rs =>
    rw [hh] at h
    cases h
    rfl

/-- A tick that fetches the opcode byte of an instruction runs it with `PC` one further. -/
theorem step_of_opcode {i : Instr} {s : State} (h : s.mem.byteAt s.regs.pc = some (opcode i)) :
    step s = exec i (withPc (s.regs.pc + 1) s) :=
  stepRunsTheDecodedInstruction s (opcode i) i h (decode_opcode i)

theorem step_of_unreadable {s : State} (h : s.mem.byteAt s.regs.pc = none) :
    step s = .fault (.failed (.outOfRange s.regs.pc)) :=
  step_of_fetchDecode_raised (by rw [fetchDecode, fetch8_of_none h, Ran.andThen_raised])

/-! ## The forms -/

/-- A one-byte instruction whose handler has the effect in every state. -/
theorem registerForm_of_handle {i : Instr} {effect : State → State}
    (h : ∀ s, handle i.family i.operand s = .done () (effect s) []) (hpc : IgnoresPc effect) :
    RegisterForm (opcode i) i i.cycles effect := by
  refine ⟨decode_opcode i, fun s => exec_of_handle_done (h s), fun s hop => ?_, fun _ => step_of_unreadable⟩
  rw [step_of_opcode hop, exec_of_handle_done (h _), hpc]

/-- A two-byte instruction whose handler fetches the immediate byte and has the effect on it. -/
theorem immediateForm_of_handle {i : Instr} {effect : Byte → State → State}
    (hsome : ∀ s n, s.mem.byteAt s.regs.pc = some n →
      handle i.family i.operand s = .done () (withPc (s.regs.pc + 1) (effect n s)) [s.regs.pc])
    (hnone : ∀ s, s.mem.byteAt s.regs.pc = none →
      (handle i.family i.operand s).answer = .error (.failed (.outOfRange s.regs.pc)))
    (hpc : ∀ n, IgnoresPc (effect n)) : ImmediateForm (opcode i) i i.cycles effect := by
  refine ⟨decode_opcode i, fun s n hn => exec_of_handle_done (hsome s n hn),
    fun s hn => exec_of_handle_error (hnone s hn), fun s n hop hn => ?_, fun s hop hn => ?_,
    fun _ => step_of_unreadable⟩
  · have htwo : s.regs.pc + 2 = s.regs.pc + 1 + 1 := (BitVec.add_assoc _ 1 1).symm
    rw [step_of_opcode hop, exec_of_handle_done (hsome _ n hn), hpc, htwo]
    rfl
  · rw [step_of_opcode hop]
    exact exec_of_handle_error (hnone _ hn)

theorem read8_withPc (pc : Word) (s : State) (w : Reg8) : (withPc pc s).regs.read8 w = s.regs.read8 w := by
  cases w <;> rfl

/-- The register forms of an 8-bit family. -/
theorem registerForm_of_handler8 {i : Instr} {effect : Byte → State → State} {w : Reg8}
    (h : Handler8 i.family effect) (hoperand : i.operand = .register8 w) (hpc : ∀ v, IgnoresPc (effect v)) :
    RegisterForm (opcode i) i i.cycles fun s => effect (s.regs.read8 w) s := by
  obtain ⟨hregister, -⟩ := h
  refine registerForm_of_handle (fun s => ?_) fun pc s => ?_
  · rw [hoperand]
    exact hregister s w
  · rw [read8_withPc]
    exact hpc _ pc s

/-- The immediate form of an 8-bit family. -/
theorem immediateForm_of_handler8 {i : Instr} {effect : Byte → State → State} (h : Handler8 i.family effect)
    (hoperand : i.operand = .imm8) (hpc : ∀ n, IgnoresPc (effect n)) :
    ImmediateForm (opcode i) i i.cycles effect := by
  obtain ⟨-, hsome, hnone, -⟩ := h
  exact immediateForm_of_handle (by rwa [hoperand]) (by rwa [hoperand]) hpc

/-- An ADD8 instruction on a register. -/
theorem addRegisterForm {i : Instr} {w : Reg8} (hfamily : i.family = .add8) (hoperand : i.operand = .register8 w) :
    RegisterForm (opcode i) i i.cycles fun s => addEffect (s.regs.read8 w) s :=
  registerForm_of_handler8 (hfamily ▸ addHandlerFollowsItsRule) hoperand addEffect_ignoresPc

/-- Settles O48: each form is the ADD8 handler on its operand. -/
theorem addInstructionsComplete : Obligations.AddInstructionsComplete :=
  ⟨addRegisterForm (i := .addAB) (w := .b) rfl rfl, addRegisterForm (i := .addAC) (w := .c) rfl rfl,
    addRegisterForm (i := .addAD) (w := .d) rfl rfl, addRegisterForm (i := .addAE) (w := .e) rfl rfl,
    addRegisterForm (i := .addAH) (w := .h) rfl rfl, addRegisterForm (i := .addAL) (w := .l) rfl rfl,
    addRegisterForm (i := .addAA) (w := .a) rfl rfl,
    immediateForm_of_handler8 (i := .addAN) addHandlerFollowsItsRule rfl addEffect_ignoresPc⟩

end Sys2Proof.Proofs
end

section
/-! PROOFS. The forms whose source is also their destination (R113, R123, R143, R158, R173, R188): the closed results of
a value added to itself and of a value taken from itself. -/

namespace Sys2Proof.Proofs
open Sys2Proof Sys2Proof.Machine Sys2Proof.Claims

/-! ## Doubling -/

/-- Adding the low `k + 1` bits of a number to themselves, with a carry, passes those bits exactly when the top one of
them is set. -/
theorem double_carries_iff_testBit (x k : Nat) {c : Nat} (hc : c ≤ 1) :
    x % 2 ^ (k + 1) + x % 2 ^ (k + 1) + c > 2 ^ (k + 1) - 1 ↔ x.testBit k = true := by
  have hlow : x % 2 ^ k < 2 ^ k := Nat.mod_lt _ (Nat.two_pow_pos k)
  rw [Nat.testBit_eq_decide_div_mod_eq, decide_eq_true_iff, Nat.mod_pow_succ, Nat.pow_succ]
  obtain hbit | hbit := Nat.mod_two_eq_zero_or_one (x / 2 ^ k)
  · rw [hbit]
    omega
  · rw [hbit]
    omega

theorem double_byte_carries_iff (a : Byte) {c : Nat} (hc : c ≤ 1) :
    a.toNat + a.toNat + c > 255 ↔ a.getLsbD 7 = true := by
  have h := double_carries_iff_testBit a.toNat 7 hc
  rwa [Nat.mod_eq_of_lt a.isLt] at h

/-- R113 and R143: the flags of a byte added to itself with a carry. -/
theorem adc8_self_flags (a : Byte) (c : Bool) :
    (adc8 a a c).flags =
      { z := decide (a = 0x00 ∨ a = 0x80) && !c, n := false, h := a.getLsbD 3, c := a.getLsbD 7 } := by
  have hc := c.toNat_le
  have hhalf : a.toNat % 16 + a.toNat % 16 + c.toNat > 15 ↔ a.getLsbD 3 = true :=
    double_carries_iff_testBit a.toNat 3 hc
  have hvalue : a = 0x00 ∨ a = 0x80 ↔ a.toNat = 0 ∨ a.toNat = 128 := by
    rw [← BitVec.toNat_inj, ← BitVec.toNat_inj]
    rfl
  have hzero : (a.toNat + a.toNat + c.toNat) % 256 = 0 ↔ (a = 0x00 ∨ a = 0x80) ∧ c = false := by
    have ha := a.isLt
    rw [hvalue, ← Bool.toNat_eq_zero]
    omega
  simp only [adc8_flags, hzero, hhalf, double_byte_carries_iff a hc, Bool.decide_and, Bool.decide_eq_true,
    Bool.decide_eq_false]

theorem add8_self_flags (a : Byte) :
    (add8 a a).flags =
      { z := decide (a = 0x00 ∨ a = 0x80), n := false, h := a.getLsbD 3, c := a.getLsbD 7 } := by
  rw [← adc8_false, adc8_self_flags, Bool.not_false, Bool.and_true]

theorem and_halfMask16_toNat (a : Word) : (a &&& halfMask 16).toNat = a.toNat % 256 :=
  (BitVec.toNat_and a _).trans (Nat.and_two_pow_sub_one_eq_mod a.toNat 8)

theorem add16_value_toNat (a b : Word) : (add16 a b).value.toNat = (a.toNat + b.toNat) % 65536 := BitVec.toNat_add a b

theorem add16_flags (a b : Word) :
    (add16 a b).flags =
      { z := decide ((a.toNat + b.toNat) % 65536 = 0), n := false
        h := decide (a.toNat % 256 + b.toNat % 256 > 255), c := decide (a.toNat + b.toNat > 65535) } := by
  rw [← add16_value_toNat, ← beq_zero_eq_decide, ← and_halfMask16_toNat, ← and_halfMask16_toNat]
  rfl

/-- R123: the flags of a pair added to itself; each byte's top bit is its carry. -/
theorem add16_self_flags (hi lo : Byte) :
    (add16 (pairOf hi lo) (pairOf hi lo)).flags =
      { z := decide (pairValue hi lo = 0x0000 ∨ pairValue hi lo = 0x8000), n := false, h := lo.getLsbD 7
        c := hi.getLsbD 7 } := by
  have hlt := (pairOf hi lo).isLt
  have hlo := lo.isLt
  have hpair := pairOf_toNat hi lo
  have hhalf : (pairOf hi lo).toNat % 256 + (pairOf hi lo).toNat % 256 > 255 ↔ lo.getLsbD 7 = true := by
    rw [← double_byte_carries_iff lo (Nat.zero_le 1)]
    omega
  have hcarry : (pairOf hi lo).toNat + (pairOf hi lo).toNat > 65535 ↔ hi.getLsbD 7 = true := by
    rw [← double_byte_carries_iff hi (Nat.zero_le 1)]
    omega
  have hzero : ((pairOf hi lo).toNat + (pairOf hi lo).toNat) % 65536 = 0 ↔
      pairValue hi lo = 0x0000 ∨ pairValue hi lo = 0x8000 := by
    rw [pairValue, ← hpair]
    omega
  simp only [add16_flags, hzero, hhalf, hcarry, Bool.decide_eq_true]

/-! ## Subtraction from itself -/

/-- R173: only the old carry is left, and it borrows from every bit. -/
theorem sbc8_self (a : Byte) (c : Bool) :
    sbc8 a a c = { value := if c then 0xFF else 0x00, flags := { z := !c, n := true, h := c, c := c } } := by
  cases c with
  | false => simp [sbc8, carryValue]
  | true => simp [sbc8, carryValue]

theorem sub8_self (a : Byte) :
    sub8 a a = { value := 0x00, flags := { z := true, n := true, h := false, c := false } } := by
  rw [← sbc8_false, sbc8_self]
  rfl

/-! ## The forms -/

/-- An 8-bit instruction on `A` whose effect writes a value and a flag set. -/
theorem exec_on_a {i : Instr} {effect : Byte → State → State} {s : State} {value : Byte} {fl : FlagSet}
    (h : AppliesTo8 i.family effect) (hoperand : i.operand = .register8 .a)
    (heffect : effect s.regs.a s = writing8 value.toNat fl s) :
    ∃ t, exec i s = .next t ∧ t.regs.a = value ∧ unpack t.regs.f = fl := by
  have hhandle : handle i.family i.operand s = .done () ((s.setReg8 .a value).setFlags fl) [] := by
    rw [h, hoperand, resolve8_register8, Ran.andThen_done, Ran.afterReads_done, setReg8_a_setFlags, ← heffect]
    rfl
  exact ⟨_, exec_of_handle_done hhandle, rfl, unpack_pack fl⟩

/-- `ADD HL,HL` writes the two bytes of the sum and its flags. -/
theorem exec_addHlHl (s : State) :
    ∃ t, exec .addHlHl s = .next t ∧ pairOf t.regs.h t.regs.l = (add16 (s.reg16 .hl) (s.reg16 .hl)).value ∧
      unpack t.regs.f = (add16 (s.reg16 .hl) (s.reg16 .hl)).flags :=
  ⟨_, rfl, pairOf_highByte_lowByte _, unpack_pack _⟩

/-- Settles O55: each form writes its primitive of a value and itself, whose closed form is above. -/
theorem sameRegisterAsSourceAndDestination : Obligations.SameRegisterAsSourceAndDestination := by
  intro s
  refine ⟨?_, ?_, ?_, ?_, ?_, ?_⟩
  · obtain ⟨t, hexec, ha, hf⟩ := exec_on_a (i := .addAA) appliesTo8_add8 rfl (addEffect_eq s.regs.a s)
    exact ⟨t, hexec, by rw [ha, add8_value_toNat, Nat.two_mul], hf.trans (add8_self_flags _)⟩
  · obtain ⟨t, hexec, ha, hf⟩ := exec_on_a (i := .adcAA) appliesTo8_adc rfl (adcEffect_eq s.regs.a s)
    exact ⟨t, hexec, by rw [ha, adc8_value_toNat, Nat.two_mul]; rfl, hf.trans (adc8_self_flags _ _)⟩
  · obtain ⟨t, hexec, ha, hf⟩ := exec_on_a (i := .subA) appliesTo8_sub rfl (subEffect_eq s.regs.a s)
    rw [sub8_self] at ha hf
    exact ⟨t, hexec, ha, hf⟩
  · obtain ⟨t, hexec, ha, hf⟩ := exec_on_a (i := .sbcAA) appliesTo8_sbc rfl (sbcEffect_eq s.regs.a s)
    rw [sbc8_self] at ha hf
    exact ⟨t, hexec, ha, hf⟩
  · obtain ⟨t, hexec, ha, hf⟩ := exec_on_a (i := .cpA) appliesTo8_cp rfl (cpEffect_eq s.regs.a s)
    exact ⟨t, hexec, ha, hf.trans (congrArg AluResult.flags (sub8_self _))⟩
  · obtain ⟨t, hexec, hpair, hf⟩ := exec_addHlHl s
    have hsum : pairValue t.regs.h t.regs.l = (2 * pairValue s.regs.h s.regs.l) % 65536 := by
      rw [pairValue, pairValue, ← pairOf_toNat, ← pairOf_toNat, hpair, add16_value_toNat, Nat.two_mul]
      rfl
    exact ⟨t, hexec, hsum, hf.trans (add16_self_flags _ _)⟩

end Sys2Proof.Proofs
end

section
/-! PROOFS. The 16-bit add (R120 to R124): its handler applies `addHlEffect`, and each of its four instructions is that
handler on a pair or on `SP`. -/

namespace Sys2Proof.Proofs
open Sys2Proof Sys2Proof.Machine Sys2Proof.Claims

/-! ## The handler -/

/-- The effect of R120 is the result of `add16`, written back. -/
theorem addHlEffect_eq (v : Word) (s : State) :
    addHlEffect v.toNat s =
      (s.setReg16 .hl (add16 (s.reg16 .hl) v).value).setFlags (add16 (s.reg16 .hl) v).flags := by
  have hpair : pairValue s.regs.h s.regs.l = (s.reg16 .hl).toNat := (pairOf_toNat s.regs.h s.regs.l).symm
  rw [addHlEffect, hpair, State.setFlags, State.setReg16, RegFile.write16_hl, highByte_eq, lowByte_eq,
    add16_value_toNat, add16_flags]
  rfl

theorem handle_add16 (o : Operand) (s : State) :
    handle .add16 o s = (resolve16 o .add16 s).andThen fun v s1 => .done () (addHlEffect v.toNat s1) [] := by
  simp only [addHlEffect_eq]
  rfl

theorem handle_add16_register16 (p : Reg16) (s : State) :
    handle .add16 (.register16 p) s = .done () (addHlEffect (s.regs.read16 p).toNat s) [] := by
  rw [handle_add16, resolve16_register16, Ran.andThen_done, Ran.afterReads_done, List.append_nil, State.reg16]

theorem handle_add16_other {o : Operand} (h : ∀ p, o ≠ .register16 p) (s : State) :
    handle .add16 o s = .raised (.invalidOperand o .add16) s [] := by
  rw [handle_add16, resolve16_other h, Ran.andThen_raised]

/-- Settles O46: the ADD16 handler applies `addHlEffect` to a pair and raises on every other operand. -/
theorem addHlHandlerFollowsItsRule : Obligations.AddHlHandlerFollowsItsRule := by
  refine ⟨fun s p => handle_add16_register16 p s, fun s o h => ?_, by decide⟩
  rw [handle_add16_other h]
  exact ⟨rfl, rfl⟩

/-! ## The instructions -/

theorem read16_withPc (pc : Word) (s : State) (p : Reg16) : (withPc pc s).regs.read16 p = s.regs.read16 p := by
  cases p <;> rfl

/-- An ADD16 instruction on a pair or on `SP`, whose value the statements write as `x`. -/
theorem addHlForm {i : Instr} {p : Reg16} {x : State → Nat} (hfamily : i.family = .add16)
    (hoperand : i.operand = .register16 p) (hx : ∀ s, (s.regs.read16 p).toNat = x s) :
    RegisterForm (opcode i) i i.cycles fun s => addHlEffect (x s) s := by
  simp only [← hx]
  refine registerForm_of_handle (fun s => ?_) fun pc s => ?_
  · rw [hfamily, hoperand, handle_add16_register16]
  · rw [read16_withPc]
    rfl

/-- Settles O53: each form is the ADD16 handler on its operand. -/
theorem addHlInstructionsComplete : Obligations.AddHlInstructionsComplete :=
  ⟨addHlForm (i := .addHlBc) (p := .bc) rfl rfl fun _ => pairOf_toNat _ _,
    addHlForm (i := .addHlDe) (p := .de) rfl rfl fun _ => pairOf_toNat _ _,
    addHlForm (i := .addHlHl) (p := .hl) rfl rfl fun _ => pairOf_toNat _ _,
    addHlForm (i := .addHlSp) (p := .sp) rfl rfl fun _ => rfl⟩

end Sys2Proof.Proofs
end

section
/-! PROOFS. The stack-pointer add (R130, R131): a signed displacement and the unsigned sum of its pattern are the same
value, so the handler applies `addSpEffect`, and `ADD SP,e` is that handler on its immediate byte. -/

namespace Sys2Proof.Proofs
open Sys2Proof Sys2Proof.Machine Sys2Proof.Claims

/-! ## The displacement and its pattern -/

/-- Adding the pattern of a signed byte moves by the byte's signed value, wrapped to 16 bits. -/
theorem add16_sext16_value (sp : Word) (e : Byte) :
    (add16 sp (sext16 e)).value = BitVec.ofInt 16 (sp.toNat + e.toInt) := by
  rw [BitVec.ofInt_add, BitVec.ofInt_natCast, BitVec.ofNat_toNat, BitVec.setWidth_eq]
  rfl

/-- The sign extension keeps the low byte. -/
theorem sext16_toNat_mod (e : Byte) : (sext16 e).toNat % 256 = e.toNat := by
  have he := e.isLt
  rw [sext16_toNat]
  split <;> omega

/-- The effect of R130 is the result of `add16` on the pattern, written back. -/
theorem addSpEffect_eq (e : Byte) (s : State) :
    addSpEffect e s =
      (s.setReg16 .sp (add16 (s.reg16 .sp) (sext16 e)).value).setFlags (add16 (s.reg16 .sp) (sext16 e)).flags := by
  rw [add16_sext16_value, add16_flags, sext16_toNat_mod, sext16_toNat]
  rfl

/-! ## The handler -/

theorem addSpEffect_ignoresPc (e : Byte) : IgnoresPc (addSpEffect e) := fun _ _ => rfl

theorem handle_addsp_of_some {s : State} {e : Byte} (h : s.mem.byteAt s.regs.pc = some e) :
    handle .addsp .immSigned8 s = .done () (withPc (s.regs.pc + 1) (addSpEffect e s)) [s.regs.pc] := by
  rw [handle, handleAddSp, resolveS8_of_some _ h, Ran.andThen_done, Ran.afterReads_done, List.append_nil,
    ← addSpEffect_eq, ← addSpEffect_ignoresPc]
  rfl

theorem handle_addsp_of_none {s : State} (h : s.mem.byteAt s.regs.pc = none) :
    handle .addsp .immSigned8 s = .raised (.failed (.outOfRange s.regs.pc)) s [s.regs.pc] :=
  andThen_of_eq_raised (resolveS8_of_none _ h)

theorem handle_addsp_other {o : Operand} (h : o ≠ .immSigned8) (s : State) :
    handle .addsp o s = .raised (.invalidOperand o .addsp) s [] :=
  andThen_of_eq_raised (resolveS8_other h _ s)

/-- Settles O47: the ADDSP handler applies `addSpEffect` to the byte it fetches and raises in every other case. -/
theorem addSpHandlerFollowsItsRule : Obligations.AddSpHandlerFollowsItsRule := by
  refine ⟨fun _ _ => handle_addsp_of_some, fun s h => ?_, fun s o h => ?_⟩
  · rw [handle_addsp_of_none h, Ran.answer]
  · rw [handle_addsp_other h]
    exact ⟨rfl, rfl⟩

/-! ## The instruction -/

/-- Settles O54: `ADD SP,e` is the ADDSP handler on its immediate byte. -/
theorem addSpInstructionCompletes : Obligations.AddSpInstructionCompletes :=
  have ⟨hsome, hnone, _⟩ := addSpHandlerFollowsItsRule
  immediateForm_of_handle (i := .addSpE) hsome hnone addSpEffect_ignoresPc

end Sys2Proof.Proofs
end

section
/-! PROOFS. The add with carry (R135 to R144): its handler applies `adcEffect`, and where the old Carry is clear the
handler is that of the 8-bit add; each of its eight executing instructions is the handler on a register or on the
immediate byte. -/

namespace Sys2Proof.Proofs
open Sys2Proof Sys2Proof.Machine Sys2Proof.Claims

/-! ## Two 8-bit families where Carry is clear -/

/-- The cells of R92 in which an 8-bit family holds a value. -/
theorem register8_or_imm8_of_accepts {fam : Family} {o : Operand} (h16 : fam ≠ .add16) (hsp : fam ≠ .addsp)
    (h : accepts fam o = true) : (∃ w, o = .register8 w) ∨ o = .imm8 := by
  obtain ⟨hassigns, hmem⟩ := assigns_of_accepts h
  obtain ⟨-, -, hreg | himm | ho⟩ | ⟨hfam, -⟩ | ⟨hfam, -⟩ := operand_of_assigns hassigns
  · exact .inl hreg
  · exact .inr himm
  · exact absurd ho hmem
  · exact absurd hfam h16
  · exact absurd hfam hsp

/-- The operand step does not write `F`, so effects that agree where Carry is clear make handlers that agree there. -/
theorem AppliesTo8.handle_eq_of_carry_clear {fam fam' : Family} {effect effect' : Byte → State → State}
    (h : AppliesTo8 fam effect) (h' : AppliesTo8 fam' effect')
    (hagree : ∀ v s, s.flags.c = false → effect v s = effect' v s) {o : Operand}
    (hkind : (∃ w, o = .register8 w) ∨ o = .imm8) {s : State} (hc : s.flags.c = false) :
    handle fam o s = handle fam' o s := by
  rw [h, h']
  obtain ⟨w, rfl⟩ | rfl := hkind
  · rw [resolve8_register8, resolve8_register8, Ran.andThen_done, Ran.andThen_done, hagree _ s hc]
  · rw [resolve8_imm8, resolve8_imm8]
    cases hn : s.mem.byteAt s.regs.pc with
    | some n => rw [fetch8_of_some hn, Ran.andThen_done, Ran.andThen_done, hagree n s.advancePc hc]
    | none => rw [fetch8_of_none hn, Ran.andThen_raised, Ran.andThen_raised]

/-! ## The handler -/

theorem adcEffect_ignoresPc (v : Byte) : IgnoresPc (adcEffect v) := fun _ _ => rfl

theorem handler8_adc : Handler8 .adc adcEffect := appliesTo8_adc.handler8 adcEffect_ignoresPc

/-- With a clear Carry, `adc8` is `add8`, so the two effects are one. -/
theorem adcEffect_of_carry_clear (v : Byte) (s : State) (hc : s.flags.c = false) :
    adcEffect v s = addEffect v s := by
  rw [adcEffect_eq, hc, adc8_false, ← addEffect_eq]

/-- Settles O42: the ADC handler applies `adcEffect`, which is `addEffect` where Carry is clear. -/
theorem adcHandlerFollowsItsRule : Obligations.AdcHandlerFollowsItsRule :=
  ⟨handler8_adc, fun s _ hc =>
    ⟨fun v => adcEffect_of_carry_clear v s hc, fun haccepts =>
      appliesTo8_adc.handle_eq_of_carry_clear appliesTo8_add8 adcEffect_of_carry_clear
        (register8_or_imm8_of_accepts (fam := .adc) nofun nofun haccepts) hc⟩⟩

/-! ## The instructions -/

/-- Settles O49: each form is the ADC handler on its operand. -/
theorem adcInstructionsComplete : Obligations.AdcInstructionsComplete :=
  ⟨registerForm_of_handler8 (i := .adcAB) (w := .b) handler8_adc rfl adcEffect_ignoresPc,
    registerForm_of_handler8 (i := .adcAC) (w := .c) handler8_adc rfl adcEffect_ignoresPc,
    registerForm_of_handler8 (i := .adcAD) (w := .d) handler8_adc rfl adcEffect_ignoresPc,
    registerForm_of_handler8 (i := .adcAE) (w := .e) handler8_adc rfl adcEffect_ignoresPc,
    registerForm_of_handler8 (i := .adcAH) (w := .h) handler8_adc rfl adcEffect_ignoresPc,
    registerForm_of_handler8 (i := .adcAL) (w := .l) handler8_adc rfl adcEffect_ignoresPc,
    registerForm_of_handler8 (i := .adcAA) (w := .a) handler8_adc rfl adcEffect_ignoresPc,
    immediateForm_of_handler8 (i := .adcAN) handler8_adc rfl adcEffect_ignoresPc⟩

end Sys2Proof.Proofs
end

section
/-! PROOFS. The subtract (R150 to R159): its handler applies `subEffect`, and each of its eight executing instructions
is the handler on a register or on the immediate byte. -/

namespace Sys2Proof.Proofs
open Sys2Proof Sys2Proof.Machine Sys2Proof.Claims

theorem subEffect_ignoresPc (v : Byte) : IgnoresPc (subEffect v) := fun _ _ => rfl

/-- Settles O43: the SUB handler applies `subEffect`, whose flags are those of `sub8`. -/
theorem subHandlerFollowsItsRule : Obligations.SubHandlerFollowsItsRule :=
  appliesTo8_sub.handler8 subEffect_ignoresPc

/-- Settles O50: each form is the SUB handler on its operand. -/
theorem subInstructionsComplete : Obligations.SubInstructionsComplete :=
  have handler8_sub : Handler8 .sub subEffect := subHandlerFollowsItsRule
  ⟨registerForm_of_handler8 (i := .subB) (w := .b) handler8_sub rfl subEffect_ignoresPc,
    registerForm_of_handler8 (i := .subC) (w := .c) handler8_sub rfl subEffect_ignoresPc,
    registerForm_of_handler8 (i := .subD) (w := .d) handler8_sub rfl subEffect_ignoresPc,
    registerForm_of_handler8 (i := .subE) (w := .e) handler8_sub rfl subEffect_ignoresPc,
    registerForm_of_handler8 (i := .subH) (w := .h) handler8_sub rfl subEffect_ignoresPc,
    registerForm_of_handler8 (i := .subL) (w := .l) handler8_sub rfl subEffect_ignoresPc,
    registerForm_of_handler8 (i := .subA) (w := .a) handler8_sub rfl subEffect_ignoresPc,
    immediateForm_of_handler8 (i := .subN) handler8_sub rfl subEffect_ignoresPc⟩

end Sys2Proof.Proofs
end

section
/-! PROOFS. The subtract with carry (R165 to R174): its handler applies `sbcEffect`, and where the old Carry is clear
the handler is that of the subtract; each of its eight executing instructions is the handler on a register or on the
immediate byte. -/

namespace Sys2Proof.Proofs
open Sys2Proof Sys2Proof.Machine Sys2Proof.Claims

theorem sbcEffect_ignoresPc (v : Byte) : IgnoresPc (sbcEffect v) := fun _ _ => rfl

theorem handler8_sbc : Handler8 .sbc sbcEffect := appliesTo8_sbc.handler8 sbcEffect_ignoresPc

/-- With a clear Carry, `sbc8` is `sub8`, so the two effects are one. -/
theorem sbcEffect_of_carry_clear (v : Byte) (s : State) (hc : s.flags.c = false) :
    sbcEffect v s = subEffect v s := by
  rw [sbcEffect_eq, hc, sbc8_false, ← subEffect_eq]

/-- Settles O44: the SBC handler applies `sbcEffect`, which is `subEffect` where Carry is clear. -/
theorem sbcHandlerFollowsItsRule : Obligations.SbcHandlerFollowsItsRule :=
  ⟨handler8_sbc, fun s _ hc =>
    ⟨fun v => sbcEffect_of_carry_clear v s hc, fun haccepts =>
      appliesTo8_sbc.handle_eq_of_carry_clear appliesTo8_sub sbcEffect_of_carry_clear
        (register8_or_imm8_of_accepts (fam := .sbc) nofun nofun haccepts) hc⟩⟩

/-- Settles O51: each form is the SBC handler on its operand. -/
theorem sbcInstructionsComplete : Obligations.SbcInstructionsComplete :=
  ⟨registerForm_of_handler8 (i := .sbcAB) (w := .b) handler8_sbc rfl sbcEffect_ignoresPc,
    registerForm_of_handler8 (i := .sbcAC) (w := .c) handler8_sbc rfl sbcEffect_ignoresPc,
    registerForm_of_handler8 (i := .sbcAD) (w := .d) handler8_sbc rfl sbcEffect_ignoresPc,
    registerForm_of_handler8 (i := .sbcAE) (w := .e) handler8_sbc rfl sbcEffect_ignoresPc,
    registerForm_of_handler8 (i := .sbcAH) (w := .h) handler8_sbc rfl sbcEffect_ignoresPc,
    registerForm_of_handler8 (i := .sbcAL) (w := .l) handler8_sbc rfl sbcEffect_ignoresPc,
    registerForm_of_handler8 (i := .sbcAA) (w := .a) handler8_sbc rfl sbcEffect_ignoresPc,
    immediateForm_of_handler8 (i := .sbcAN) handler8_sbc rfl sbcEffect_ignoresPc⟩

end Sys2Proof.Proofs
end

section
/-! PROOFS. The compare (R180 to R189): its handler applies `cpEffect`, which writes `A` back as it was, and each of its
eight executing instructions is the handler on a register or on the immediate byte. -/

namespace Sys2Proof.Proofs
open Sys2Proof Sys2Proof.Machine Sys2Proof.Claims

theorem cpEffect_ignoresPc (v : Byte) : IgnoresPc (cpEffect v) := fun _ _ => rfl

/-- Settles O45: the CP handler applies `cpEffect`, whose flags are those of `cp8`. -/
theorem cpHandlerFollowsItsRule : Obligations.CpHandlerFollowsItsRule :=
  appliesTo8_cp.handler8 cpEffect_ignoresPc

/-- Settles O52: each form is the CP handler on its operand. -/
theorem cpInstructionsComplete : Obligations.CpInstructionsComplete :=
  have handler8_cp : Handler8 .cp cpEffect := cpHandlerFollowsItsRule
  ⟨registerForm_of_handler8 (i := .cpB) (w := .b) handler8_cp rfl cpEffect_ignoresPc,
    registerForm_of_handler8 (i := .cpC) (w := .c) handler8_cp rfl cpEffect_ignoresPc,
    registerForm_of_handler8 (i := .cpD) (w := .d) handler8_cp rfl cpEffect_ignoresPc,
    registerForm_of_handler8 (i := .cpE) (w := .e) handler8_cp rfl cpEffect_ignoresPc,
    registerForm_of_handler8 (i := .cpH) (w := .h) handler8_cp rfl cpEffect_ignoresPc,
    registerForm_of_handler8 (i := .cpL) (w := .l) handler8_cp rfl cpEffect_ignoresPc,
    registerForm_of_handler8 (i := .cpA) (w := .a) handler8_cp rfl cpEffect_ignoresPc,
    immediateForm_of_handler8 (i := .cpN) handler8_cp rfl cpEffect_ignoresPc⟩

end Sys2Proof.Proofs
end

section
/-! PROOFS. The error order of R200, and the run that ends at the first error (R226): each of the four cases decides
what the tick answers, and a fault after `m` completed ticks is the end of every longer run. -/

namespace Sys2Proof.Proofs
open Sys2Proof Sys2Proof.Machine Sys2Proof.Claims

/-! ## The error order -/

/-- A decoded instruction with the operand `Memory(HL)` ends the tick in its handler (R97). -/
theorem step_of_memory_operand {s : State} {op : Byte} {i : Instr} (hop : s.mem.byteAt s.regs.pc = some op)
    (hdec : decode op = .ok i) (ho : i.operand = .memory .hl) :
    step s = .fault (.invalidOperand (.memory .hl) i.family) := by
  rw [stepRunsTheDecodedInstruction s op i hop hdec]
  exact exec_of_handle_error (by rw [ho, handle_memory, Ran.answer])

/-- A decoded instruction whose immediate byte cannot be read ends the tick with the address after the opcode byte. -/
theorem step_of_unreadable_trailing {s : State} {op : Byte} {i : Instr} (hop : s.mem.byteAt s.regs.pc = some op)
    (hdec : decode op = .ok i) (htrailing : i.operand.hasTrailing = true)
    (hnone : s.mem.byteAt (s.regs.pc + 1) = none) : step s = .fault (.failed (.outOfRange (s.regs.pc + 1))) := by
  rw [stepRunsTheDecodedInstruction s op i hop hdec]
  obtain ⟨ho, -⟩ | ⟨-, -, hraised⟩ | ⟨⟨-, hreadable⟩, -⟩ :=
    handle_cases (assigns_family_operand i) (withPc (s.regs.pc + 1) s)
  · rw [ho] at htrailing
    cases htrailing
  · exact exec_of_handle_error (by rw [hraised]; rfl)
  · obtain ⟨n, hn⟩ := hreadable htrailing
    cases hn.symm.trans hnone

/-- Settles O21: a fault comes from one of the four failing cases of `step_cases`, and each of the four conditions
decides the tick by itself. -/
theorem errorsComeInTheirOrder : Obligations.ErrorsComeInTheirOrder := by
  intro s e
  constructor
  · intro h
    obtain ⟨hnone, hf⟩ | ⟨op, hop, hdec, hf⟩ | ⟨op, i, hop, hdec, ⟨ho, hf⟩ | ⟨ht, hnone, hf⟩ | ⟨-, t, hnext, -⟩⟩ :=
      step_cases s
    · cases h.symm.trans hf
      exact .inl ⟨hnone, rfl⟩
    · cases h.symm.trans hf
      exact .inr (.inl ⟨op, hop, hdec, rfl⟩)
    · cases h.symm.trans hf
      exact .inr (.inr (.inl ⟨op, i, hop, hdec, ho, rfl⟩))
    · cases h.symm.trans hf
      exact .inr (.inr (.inr ⟨op, i, hop, hdec, ht, hnone, rfl⟩))
    · cases h.symm.trans hnext
  · rintro (⟨hnone, rfl⟩ | ⟨op, hop, hdec, rfl⟩ | ⟨op, i, hop, hdec, ho, rfl⟩ | ⟨op, i, hop, hdec, ht, hnone, rfl⟩)
    · exact step_of_unreadable hnone
    · exact step_of_decode_error hop hdec
    · exact step_of_memory_operand hop hdec ho
    · exact step_of_unreadable_trailing hop hdec ht hnone

/-! ## The end of a run -/

/-- Where the tick after `m` completed ones fails, every longer run is those `m` ticks, ended by that fault. -/
theorem runTicks_add_of_safe_of_fault {m : Nat} {s : State} {e : Fault} (hsafe : SafeFor m s)
    (hfault : step (runTicks m s).last = .fault e) (n : Nat) :
    runTicks (m + 1 + n) s = endingWith e (runTicks m s) := by
  have hone : runTicks (m + 1) s = endingWith e (runTicks m s) := runTicks_succ_of_safe_of_fault hsafe hfault
  have hends : ¬ SafeFor (m + 1) s := not_safeFor_iff.mpr ⟨e, by rw [hone, endingWith]⟩
  rw [runTicks_add_of_not_safe hends, hone]

/-- Settles O36: each clause is one case of the error order in the state after `m` ticks. -/
theorem runsEndAtTheFirstFailingTick : Obligations.RunsEndAtTheFirstFailingTick := by
  intro m n s hsafe
  refine ⟨fun hnone => ?_, fun op hop hun => ?_, fun p hp hop => ?_, fun op i hop hdec ht hnone => ?_⟩
  · exact runTicks_add_of_safe_of_fault hsafe (step_of_unreadable hnone) n
  · exact runTicks_add_of_safe_of_fault hsafe (step_of_decode_error hop (decode_eq_error_iff.mpr hun)) n
  · obtain ⟨-, -, hstep, -⟩ := memoryFormsAlwaysFault p hp
    exact runTicks_add_of_safe_of_fault hsafe (hstep _ hop) n
  · exact runTicks_add_of_safe_of_fault hsafe (step_of_unreadable_trailing hop hdec ht hnone) n

end Sys2Proof.Proofs
end

section
/-! PROOFS. The count of a completed tick (R59, R225): it is the static count of the instruction's family and operand
kind, and no completed tick has the operand `Memory(HL)`. -/

namespace Sys2Proof.Proofs
open Sys2Proof Sys2Proof.Machine

theorem staticCycles_register8 {fam : Family} (h16 : fam ≠ .add16) (hsp : fam ≠ .addsp) (w : Reg8) :
    staticCycles fam (.register8 w) = 4 := by
  cases fam with
  | add16 => exact absurd rfl h16
  | addsp => exact absurd rfl hsp
  | add8 | adc | sub | sbc | cp => rfl

theorem staticCycles_imm8 {fam : Family} (h16 : fam ≠ .add16) (hsp : fam ≠ .addsp) :
    staticCycles fam .imm8 = 8 := by
  cases fam with
  | add16 => exact absurd rfl h16
  | addsp => exact absurd rfl hsp
  | add8 | adc | sub | sbc | cp => rfl

/-- Settles O25: R59's count in each cell that the tables assign, `Memory(HL)` being no operand of a completed tick. -/
theorem completedTickReturnsItsStaticCount : Obligations.CompletedTickReturnsItsStaticCount := by
  intro s t h
  obtain ⟨op, i, hop, hdec, ⟨hmem, -⟩, -, -, hcount⟩ := step_next h
  rw [cycles_eq_staticCycles] at hcount
  refine ⟨op, i, hop, hdec, ?_⟩
  obtain ⟨h16, hsp, ⟨w, ho⟩ | ho | ho⟩ | ⟨hfam, p, ho⟩ | ⟨hfam, ho⟩ := operand_of_assigns (assigns_family_operand i)
  · rw [ho, staticCycles_register8 h16 hsp] at hcount
    exact .inr (.inr (.inr ⟨⟨w, ho⟩, hcount⟩))
  · rw [ho, staticCycles_imm8 h16 hsp] at hcount
    exact .inr (.inr (.inl ⟨ho, hcount⟩))
  · exact absurd ho hmem
  · rw [hfam] at hcount
    exact .inr (.inl ⟨hfam, ⟨p, ho⟩, hcount⟩)
  · rw [hfam] at hcount
    exact .inl ⟨hfam, ho, hcount⟩

end Sys2Proof.Proofs
end

section
/-! PROOFS. What the host sets before the first tick (R220, R222): reset keeps the memory, and a launch register file is
taken as it is or refused by the low nibble of its `F`. -/

namespace Sys2Proof.Proofs
open Sys2Proof Sys2Proof.Machine

/-- Settles O8: the reset core is the one constructed over the same memory. -/
theorem resettingTheCoreKeepsTheMemory : Obligations.ResettingTheCoreKeepsTheMemory := by
  intro s
  have hmem : s.resetCore.mem = s.mem := construct_mem s.mem
  exact ⟨construct_regs s.mem, fun a => by rw [hmem], construct_lastCycles s.mem⟩

theorem launch_of_lowNibble_eq_zero {r : RegFile} (h : r.f &&& 0x0F = 0) (m : Memory) :
    launch r m = .ok { construct m with regs := r } := if_pos h

theorem launch_of_lowNibble_ne_zero {r : RegFile} (h : r.f &&& 0x0F ≠ 0) (m : Memory) :
    launch r m = .error .launchFlagBits := if_neg h

/-- Settles O9: the test of `launch` on bits 3 to 0 of `F` is the remainder by 16. -/
theorem launchAcceptsExactlyTheRegisterFilesWithAZeroLowNibble :
    Obligations.LaunchAcceptsExactlyTheRegisterFilesWithAZeroLowNibble := by
  intro r m
  rw [ne_eq, ← lowNibble_eq_zero_iff]
  exact ⟨fun h => launch_of_lowNibble_eq_zero h m, fun h => launch_of_lowNibble_ne_zero h m⟩

end Sys2Proof.Proofs
end
